-- ==== Sys2Proof/Word.lean ====
section
/-! DEFINITION. The word types of the engine (00_scope.md R6, R8, R9): values are unsigned, bit 0 is the least
significant. -/

namespace Sys2Proof

/-- A byte is 8 bits (20_memory.md R60). -/
abbrev Byte := BitVec 8

/-- "Word: a 64-bit unsigned integer" (00_scope.md R9): every register but ACC, and every command. -/
abbrev Word := BitVec 64

/-- The accumulator register is 132 bits wide (10_state.md R27). -/
abbrev Acc := BitVec 132

end Sys2Proof
end

