-- ==== Sys2Proof/Syntax.lean ====
section
/-! DEFINITION. The sixteen commands of 30_encoding.md R94, one constructor per row of spec/opcode_table.json, and the
three pseudo-commands of R99. -/

namespace Sys2Proof

/-- A command. The only operand is the byte offset `off` of the format-A commands (30_encoding.md R93): a natural, used
as itself, unsigned and unscaled; WellFormed.lean bounds it. -/
inductive Instr where
  /-- SYS.CLRF, 42_system.md R181 -/
  | sysClrf
  /-- SYS.RST, 42_system.md R182 -/
  | sysRst
  /-- NH.INIT, 40_nh_unit.md R111 -/
  | nhInit
  /-- NH.XOR off, 40_nh_unit.md R114 -/
  | nhXor (off : Nat)
  /-- NH.RND, 40_nh_unit.md R113 -/
  | nhRnd
  /-- NH.ABS off, 40_nh_unit.md R115 -/
  | nhAbs (off : Nat)
  /-- NH.OUT, 40_nh_unit.md R116 -/
  | nhOut
  /-- NH.DIGEST, 40_nh_unit.md R117 -/
  | nhDigest
  /-- PA.KEY, 41_pa_unit.md R142 -/
  | paKey
  /-- PA.CLR, 41_pa_unit.md R143 -/
  | paClr
  /-- PA.ADDN, 41_pa_unit.md R144 -/
  | paAddn
  /-- PA.ADDM off, 41_pa_unit.md R145 -/
  | paAddm (off : Nat)
  /-- PA.MULR, 41_pa_unit.md R148 -/
  | paMulr
  /-- PA.MULS, 41_pa_unit.md R149 -/
  | paMuls
  /-- PA.TAG, 41_pa_unit.md R151 -/
  | paTag
  /-- PA.AUTH, 41_pa_unit.md R152 -/
  | paAuth
deriving DecidableEq, Repr

/-- The pseudo-commands of 30_encoding.md R99. -/
inductive Pseudo where
  | nhTail (off : Nat)
  | paRed
  | paFin
deriving DecidableEq, Repr

end Sys2Proof
end

