-- ==== Sys2Proof/WellFormed.lean ====
section
/-! DEFINITION. Which command terms are commands of the engine: the offset fits its 24-bit field. -/

namespace Sys2Proof

/-- "the operand value is the natural `off` itself, 0 ≤ off < 2^24" (30_encoding.md R93). -/
def offsetFits (off : Nat) : Bool := decide (off < 2 ^ 24)

/-- A term is well formed when it is one of the commands an encoding exists for (30_encoding.md R91, R92). -/
def Instr.wellFormed : Instr → Bool
  | .sysClrf | .sysRst | .nhInit | .nhRnd | .nhOut | .nhDigest => true
  | .paKey | .paClr | .paAddn | .paMulr | .paMuls | .paTag | .paAuth => true
  | .nhXor off => offsetFits off
  | .nhAbs off => offsetFits off
  | .paAddm off => offsetFits off

end Sys2Proof
end

