-- ==== Sys2Proof/Decode.lean ====
section
/-! DEFINITION. The command word: field extraction, the total decoder of 30_encoding.md R95 step 1, the encoder, the
opcode table as rows of mask and match, and the host's entry point decodeTableWord. -/

namespace Sys2Proof

/-- `v[hi:lo]` is the integer `(v >> lo) mod 2^(hi-lo+1)` (00_scope.md R9). -/
def slice (v : Word) (hi lo : Nat) : Nat := v.toNat / 2 ^ lo % 2 ^ (hi - lo + 1)

/-- Why a word is no command (30_encoding.md R96 names these three cases). -/
inductive IllegalReason where
  /-- "any word with `cw[63:32] ≠ 0`" -/
  | upperHalfNotZero
  /-- "any word whose `op` is not in" the sixteen opcodes -/
  | unassignedOpcode
  /-- "any format-N opcode with `cw[23:0] ≠ 0`" -/
  | operandNotZero
deriving DecidableEq, Repr

/-- What the decoder answers: "every 64-bit value is either exactly one of the sixteen commands or Illegal"
(30_encoding.md R95). -/
inductive Decoded where
  | command (i : Instr)
  | illegal (why : IllegalReason)
deriving DecidableEq, Repr

/-- The format-N opcodes of 30_encoding.md R94. -/
def formatN : Nat → Option Instr
  | 0x01 => some .sysClrf
  | 0x02 => some .sysRst
  | 0x10 => some .nhInit
  | 0x12 => some .nhRnd
  | 0x14 => some .nhOut
  | 0x1F => some .nhDigest
  | 0x20 => some .paKey
  | 0x21 => some .paClr
  | 0x22 => some .paAddn
  | 0x24 => some .paMulr
  | 0x25 => some .paMuls
  | 0x26 => some .paTag
  | 0x2F => some .paAuth
  | _ => none

/-- The format-A opcodes of 30_encoding.md R94, with the offset field `off`. -/
def formatA (op off : Nat) : Option Instr :=
  match op with
  | 0x11 => some (.nhXor off)
  | 0x13 => some (.nhAbs off)
  | 0x23 => some (.paAddm off)
  | _ => none

/-- 30_encoding.md R95 step 1, in its order. -/
def decode (v : Word) : Decoded :=
  if slice v 63 32 ≠ 0 then .illegal .upperHalfNotZero
  else
    match formatN (slice v 31 24) with
    | some i => if slice v 23 0 = 0 then .command i else .illegal .operandNotZero
    | none =>
      match formatA (slice v 31 24) (slice v 23 0) with
      | some i => .command i
      | none => .illegal .unassignedOpcode

/-- The opcode `op = cw[31:24]` of each command (30_encoding.md R94). -/
def Instr.opcode : Instr → Nat
  | .sysClrf => 0x01
  | .sysRst => 0x02
  | .nhInit => 0x10
  | .nhXor _ => 0x11
  | .nhRnd => 0x12
  | .nhAbs _ => 0x13
  | .nhOut => 0x14
  | .nhDigest => 0x1F
  | .paKey => 0x20
  | .paClr => 0x21
  | .paAddn => 0x22
  | .paAddm _ => 0x23
  | .paMulr => 0x24
  | .paMuls => 0x25
  | .paTag => 0x26
  | .paAuth => 0x2F

/-- The low field `cw[23:0]`: the offset in format A (R92), zero in format N (R91). -/
def Instr.offsetField : Instr → Nat
  | .nhXor off | .nhAbs off | .paAddm off => off
  | .sysClrf | .sysRst | .nhInit | .nhRnd | .nhOut | .nhDigest => 0
  | .paKey | .paClr | .paAddn | .paMulr | .paMuls | .paTag | .paAuth => 0

/-- "The encoding of a mnemonic line is `(op << 24) + off`" (30_encoding.md R98). -/
def encode (i : Instr) : Word := BitVec.ofNat 64 (i.opcode <<< 24 + i.offsetField)

/-- The mnemonic of each command (30_encoding.md R94). -/
def Instr.mnemonic : Instr → String
  | .sysClrf => "SYS.CLRF"
  | .sysRst => "SYS.RST"
  | .nhInit => "NH.INIT"
  | .nhXor _ => "NH.XOR"
  | .nhRnd => "NH.RND"
  | .nhAbs _ => "NH.ABS"
  | .nhOut => "NH.OUT"
  | .nhDigest => "NH.DIGEST"
  | .paKey => "PA.KEY"
  | .paClr => "PA.CLR"
  | .paAddn => "PA.ADDN"
  | .paAddm _ => "PA.ADDM"
  | .paMulr => "PA.MULR"
  | .paMuls => "PA.MULS"
  | .paTag => "PA.TAG"
  | .paAuth => "PA.AUTH"

/-- One row of spec/opcode_table.json: a word is the row's command when `word &&& mask = pattern`. -/
structure OpcodeRow where
  mnemonic : String
  pattern : Word
  mask : Word
deriving DecidableEq, Repr

/-- "A format-N command is selected by all 64 bits" (30_encoding.md R91). -/
def rowN (mnemonic : String) (pattern : Word) : OpcodeRow := ⟨mnemonic, pattern, 0xFFFFFFFFFFFFFFFF⟩

/-- "A format-A command is selected by bits 63:24" (30_encoding.md R92). -/
def rowA (mnemonic : String) (pattern : Word) : OpcodeRow := ⟨mnemonic, pattern, 0xFFFFFFFFFF000000⟩

/-- spec/opcode_table.json, row by row, in its order. -/
def opcodeRows : List OpcodeRow :=
  [ rowN "SYS.CLRF" 0x0000000001000000, rowN "SYS.RST" 0x0000000002000000,
    rowN "NH.INIT" 0x0000000010000000, rowA "NH.XOR" 0x0000000011000000,
    rowN "NH.RND" 0x0000000012000000, rowA "NH.ABS" 0x0000000013000000,
    rowN "NH.OUT" 0x0000000014000000, rowN "NH.DIGEST" 0x000000001F000000 ] ++
  [ rowN "PA.KEY" 0x0000000020000000, rowN "PA.CLR" 0x0000000021000000,
    rowN "PA.ADDN" 0x0000000022000000, rowA "PA.ADDM" 0x0000000023000000,
    rowN "PA.MULR" 0x0000000024000000, rowN "PA.MULS" 0x0000000025000000,
    rowN "PA.TAG" 0x0000000026000000, rowN "PA.AUTH" 0x000000002F000000 ]

/-- The expansions of 30_encoding.md R99, in the order the commands are issued. -/
def Pseudo.expand : Pseudo → List Instr
  | .nhTail off => [.nhXor off]
  | .paRed => [.paMulr, .paMuls]
  | .paFin => [.paMuls, .paTag]

/-- The command word of a row of the opcode table: a command is one 64-bit word (30_encoding.md R90), so the bits above
`nbits` are zero and there is no second word. -/
def tableWord (nbits w : Nat) : Word := BitVec.ofNat 64 (w % 2 ^ nbits)

/-- The command the decoder reads from the table's bits; none where it is Illegal. -/
def decodeTableWord (nbits w : Nat) : Option Instr :=
  match decode (tableWord nbits w) with
  | .command i => some i
  | .illegal _ => none

end Sys2Proof
end

