-- ==== Sys2Proof/Config.lean ====
section
/-! DEFINITION. What the spec leaves open. The three parameters of 00_scope.md R7 and the contents of MB after a hard
reset (10_state.md R45, 70_reset_and_hazards.md R222) are constants without a body: nothing in Lean can find a value of
one, so no proof can lean on it (notes/assumptions/3.md, 4.md). -/

namespace Sys2Proof

/-- `NH_C0`, named by the source and never given (00_scope.md R7, 91_not_in_source.md N1). -/
opaque Config.nhC0 : Word

/-- `NH_C1`, named by the source and never given (00_scope.md R7, 91_not_in_source.md N1). -/
opaque Config.nhC1 : Word

/-- `MB_CAP - 1`: the one constraint on the capacity is 1 ≤ MB_CAP ≤ 2^24 (00_scope.md R7). -/
opaque Config.mbCapLessOne : Fin (2 ^ 24)

/-- `Config.mbFree e a` is what `MB[a]` holds after the e-th hard reset until the host writes it: "each byte may hold
any value, and the values need not be the same after two resets" (70_reset_and_hazards.md R222). -/
opaque Config.mbFree : Nat → Nat → Byte

/-- The open parameters, "which the model takes as arguments" (00_scope.md R7). DESIGN CHOICE, safe: they reach `exec`
through a field of State that no step writes, so every statement over all states holds for all their values
(notes/assumptions/3.md). -/
structure Params where
  nhC0 : Word
  nhC1 : Word
  mbCap : Nat
deriving DecidableEq, Repr

/-- The parameters of the machine that State.reset describes: nothing is known of them but the bound of R7. -/
def Params.unknown : Params :=
  { nhC0 := Config.nhC0, nhC1 := Config.nhC1, mbCap := Config.mbCapLessOne.val + 1 }

end Sys2Proof
end

