-- ==== Sys2Proof/Machine/State.lean ====
section
/-! DEFINITION. The state of the engine as plain data (10_state.md, the tuple at its head, "and nothing else"), the
model's own fields beside it, the reasons a step can stop, and the state after a hard reset. -/

namespace Sys2Proof.Machine

/-- The four state registers of the NH unit, "called a, b, c, d in that order" (10_state.md R20). The same shape holds
the four words of a block (40_nh_unit.md R114). -/
structure NhState where
  a : Word
  b : Word
  c : Word
  d : Word
deriving DecidableEq, Repr

/-- The four key-limb registers `R0`, `R1`, `S0`, `S1` of the PA unit (10_state.md R25). -/
structure Limbs where
  r0 : Word
  r1 : Word
  s0 : Word
  s1 : Word
deriving DecidableEq, Repr

/-- A descriptor, "a pair (OFF, LEN)" of two 64-bit registers, "every 64-bit value storable" (10_state.md R34). -/
structure Descriptor where
  off : Word
  len : Word
deriving DecidableEq, Repr

/-- The message buffer `MB`: the bytes the host has written since the last hard reset, in rising order of address
(10_state.md R36). An address that is not listed has no value of its own: it reads as the unspecified byte of
Machine/Ops.lean's `mbByte` (notes/assumptions/4.md). -/
abbrev Memory := List Host.Cell

/-- One access of the host (70_reset_and_hazards.md R227): a write or a read of `width` bytes at a byte offset from the
engine's base address, or the assertion of the reset input. A command is a write to the offset of `CMD`. -/
inductive HostAccess where
  | write (offset width : Nat) (value : Word)
  | read (offset width : Nat)
  | hardReset
deriving DecidableEq, Repr

/-- The whole state. The first eleven fields are the spec's tuple; the last four are the model's own, as their comments
say (notes/assumptions/1.md to 4.md). -/
structure State where
  /-- `NS[0..3]`, 10_state.md R20 -/
  ns : NhState
  /-- `R0, R1, S0, S1`, 10_state.md R25 -/
  limbs : Limbs
  /-- `ACC`, 132 bits, 10_state.md R27 -/
  acc : Acc
  /-- `OUT[0..32)`, 10_state.md R29 -/
  out : Vector Byte 32
  /-- `STATUS`, 10_state.md R30 -/
  status : Word
  /-- `CTRL`, 10_state.md R31 -/
  ctrl : Word
  /-- `FINFO`, 10_state.md R32 -/
  finfo : Word
  /-- `KEY_OFF, KEY_LEN`, 10_state.md R34 -/
  key : Descriptor
  /-- `NON_OFF, NON_LEN`, 10_state.md R34 -/
  non : Descriptor
  /-- `MSG_OFF, MSG_LEN`, 10_state.md R34 -/
  msg : Descriptor
  /-- `MB`, 10_state.md R36 -/
  mb : Memory
  /-- the model's own: the open parameters of 00_scope.md R7, written by nothing (notes/assumptions/3.md) -/
  params : Params
  /-- the model's own: the number of hard resets, which picks the unspecified bytes of MB (notes/assumptions/4.md) -/
  mbEpoch : Nat
  /-- the model's own: what the host will do next, the first access first (notes/assumptions/1.md); not a queue in the
  engine, which has none (30_encoding.md R90) -/
  pending : List HostAccess
  /-- the model's own: the value the host's last read returned (notes/assumptions/2.md) -/
  reply : Option Word
deriving DecidableEq, Repr

/-- Why the machine could stop with a fault: never. The engine's faults (60_exceptions.md R190) are recorded in STATUS
and FINFO and the engine goes on, so they are next states; the spec describes nothing that stops it. DEDUCED, safe
(notes/assumptions/11.md). -/
inductive Fault where
deriving DecidableEq, Repr

/-- Why a step has no meaning. -/
inductive Refusal where
  /-- An instruction of the table without a meaning; raised by `exec` alone. No arm raises it. Safe. -/
  | notModelled (mnemonic : String)
  /-- A host access to an unmapped offset: "a model refuses it" (10_state.md R44). Raised by Machine/Host.lean.
  Safe. -/
  | unmappedOffset (offset : Nat)
  /-- A host access of a width or alignment the spec does not support: "a model refuses it" (10_state.md R42). Raised by
  Machine/Host.lean. Safe. -/
  | unsupportedAccess (offset width : Nat)
deriving DecidableEq, Repr

/-- A step's outcome. -/
abbrev Result := Host.Outcome State Fault Refusal

/-- After a hard reset (10_state.md R45, 70_reset_and_hazards.md R221): every register and OUT zero, MB unspecified. The
engine is idle and waits for the first access (R223). -/
def State.reset : State where
  ns := ⟨0, 0, 0, 0⟩
  limbs := ⟨0, 0, 0, 0⟩
  acc := 0
  out := Vector.replicate 32 0
  status := 0
  ctrl := 0
  finfo := 0
  key := ⟨0, 0⟩
  non := ⟨0, 0⟩
  msg := ⟨0, 0⟩
  mb := []
  params := Params.unknown
  mbEpoch := 0
  pending := []
  reply := none

end Sys2Proof.Machine
end

