-- ==== Sys2Proof/Machine/Flags.lean ====
section
/-! DEFINITION. The fields of STATUS and CTRL (10_state.md R30, R31): "the engine's only flags"; no arithmetic command
writes any of them. -/

namespace Sys2Proof.Machine

/-- `v` with bits `[lo+n-1 : lo]` replaced by the low `n` bits of `x`, every other bit kept. -/
def putField (v : Word) (lo n x : Nat) : Word :=
  BitVec.ofNat 64 ((v.toNat / 2 ^ (lo + n)) <<< (lo + n) + (x % 2 ^ n) <<< lo + v.toNat % 2 ^ lo)

/-- `STATUS.FAULT`, bit 0 (10_state.md R30). -/
def statusFault (v : Word) : Nat := slice v 0 0

/-- `STATUS.CAUSE`, bits 7:4 (10_state.md R30). -/
def statusCause (v : Word) : Nat := slice v 7 4

/-- `STATUS.OKIND`, bits 9:8 (10_state.md R30). -/
def statusOkind (v : Word) : Nat := slice v 9 8

/-- `STATUS.FAULT <- fault; STATUS.CAUSE <- cause`. -/
def putFault (v : Word) (fault cause : Nat) : Word := putField (putField v 0 1 fault) 4 4 cause

/-- `STATUS.OKIND <- k`. -/
def putOkind (v : Word) (k : Nat) : Word := putField v 8 2 k

/-- `CTRL.ZPAD`, bit 0 (10_state.md R31). -/
def ctrlZpad (v : Word) : Nat := slice v 0 0

/-- What a host write of `v` leaves in CTRL: bit 0 is stored, bits 63:1 are ignored and read as 0 (10_state.md R31,
R43). -/
def ctrlStored (v : Word) : Word := BitVec.ofNat 64 (slice v 0 0)

/-- A fault is recorded and not yet cleared (10_state.md R30). -/
def State.faulted (s : State) : Bool := decide (statusFault s.status = 1)

/-- `CTRL.ZPAD = 1`: a read past a descriptor's end gives zero bytes (10_state.md R31). -/
def State.zpad (s : State) : Bool := decide (ctrlZpad s.ctrl = 1)

/-- The fault causes of 60_exceptions.md R191. -/
inductive Cause where
  | illegalCommand
  | invalidKeySize
  | invalidNonceSize
  | bufferUnderflow
  | badDescriptor
deriving DecidableEq, Repr

/-- The code of a cause in `STATUS.CAUSE` (60_exceptions.md R191). -/
def Cause.code : Cause → Nat
  | .illegalCommand => 1
  | .invalidKeySize => 2
  | .invalidNonceSize => 3
  | .bufferUnderflow => 4
  | .badDescriptor => 5

/-- `STATUS.OKIND` for an NH digest in OUT (10_state.md R30). -/
def okindDigest : Nat := 1

/-- `STATUS.OKIND` for a PA tag in OUT (10_state.md R30). -/
def okindTag : Nat := 2

end Sys2Proof.Machine
end

