-- ==== Sys2Proof/Machine/Ops.lean ====
section
/-! DEFINITION. The named operations over memory and registers: MB, OUT, fault entry and its return, the two resets, and
the one shape every command has (drop while faulted, check phase, execute phase). -/

namespace Sys2Proof.Machine

/-- The byte the host has written at `a`, if it has written one since the last hard reset. -/
def Memory.read? : Memory → Nat → Option Byte
  | [], _ => none
  | (x, b) :: rest, a => if a = x then some b else Memory.read? rest a

/-- Writes one byte, keeping the addresses strictly rising. -/
def Memory.write : Memory → Nat → Byte → Memory
  | [], a, b => [(a, b)]
  | (x, c) :: rest, a, b =>
    if a < x then (a, b) :: (x, c) :: rest
    else if a = x then (a, b) :: rest
    else (x, c) :: Memory.write rest a b

/-- The canonical form: addresses strictly rising. An unlisted address has no value, so no entry can equal what an
unlisted address reads as (notes/assumptions/4.md). -/
abbrev Memory.wf (m : Memory) : Prop := List.Pairwise (fun x y : Host.Cell => x.1 < y.1) m

/-- `MB[a]`: "the byte last written by the host to that address (or the arbitrary post-reset byte if the host has not
written it since hard reset" (20_memory.md R61). The arbitrary byte is a free value (notes/assumptions/4.md). -/
def State.mbByte (s : State) (a : Nat) : Byte := (Memory.read? s.mb a).getD (Config.mbFree s.mbEpoch a)

/-- `MemRead(a, n)`, the n bytes from `MB[a]` upward (20_memory.md R62). -/
def State.memRead (s : State) (a n : Nat) : List Byte := (List.range n).map fun k => s.mbByte (a + k)

/-- Byte k of a 64-bit value, byte 0 the least significant (00_scope.md R11). -/
def byteOf (w : Word) (k : Nat) : Byte := BitVec.ofNat 8 (w.toNat / 2 ^ (8 * k))

/-- A host store of the low `n` bytes of `v` at `a`, "the byte at the lowest offset being the least significant byte of
the value" (10_state.md R42). -/
def Memory.writeBytes (m : Memory) (a : Nat) (v : Word) : Nat → Memory
  | 0 => m
  | n + 1 => Memory.write (Memory.writeBytes m a v n) (a + n) (byteOf v n)

/-- `MemWrite(a, n, v)` sets `OUT[a + k] <- v[k]` (20_memory.md R66). -/
def memWrite (a : Nat) (v : List Byte) (out : Vector Byte 32) : Vector Byte 32 :=
  ⟨⟨(List.range 32).map fun k => if a ≤ k ∧ k < a + v.length then v.getD (k - a) 0 else out.toList.getD k 0⟩,
    by simp⟩

/-- Fault entry (60_exceptions.md R195): FAULT, CAUSE and FINFO are written, "No other state changes". `w` is the value
written to CMD. -/
def raise (w : Word) (c : Cause) (s : State) : State :=
  { s with status := putFault s.status 1 c.code, finfo := w }

/-- The return from a fault, SYS.CLRF (42_system.md R181): FAULT, CAUSE and FINFO become 0, "Nothing else changes". -/
def clearFault (s : State) : State :=
  { s with status := putFault s.status 0 0, finfo := 0 }

/-- The soft reset, SYS.RST (42_system.md R182, 10_state.md R45): every register and OUT zero, MB unchanged. -/
def softReset (s : State) : State :=
  { s with
    ns := ⟨0, 0, 0, 0⟩, limbs := ⟨0, 0, 0, 0⟩, acc := 0, out := Vector.replicate 32 0, status := 0, ctrl := 0,
    finfo := 0, key := ⟨0, 0⟩, non := ⟨0, 0⟩, msg := ⟨0, 0⟩ }

/-- The hard reset (70_reset_and_hazards.md R221, R222): as the soft reset, and MB becomes unspecified anew. The host's
own fields are not the engine's and stay (notes/assumptions/7.md). -/
def hardReset (s : State) : State :=
  { softReset s with mb := [], mbEpoch := s.mbEpoch + 1 }

/-- "the one reported is the first in this order" (60_exceptions.md R200): the first condition that holds. -/
def firstFault : List (Bool × Cause) → Option Cause
  | [] => none
  | (true, c) :: _ => some c
  | (false, _) :: rest => firstFault rest

/-- The shape of every command but the system ones. While a fault is recorded the command is dropped, "no state change at
all" (30_encoding.md R95 step 2, 60_exceptions.md R201). Otherwise the check phase names the first fault, which is
entered with the command's word (R195), or the execute phase runs in full (R199). -/
def execute (i : Instr) (check : Option Cause) (effect : State → State) (s : State) : Result :=
  if s.faulted then .next s
  else
    match check with
    | some c => .next (raise (encode i) c s)
    | none => .next (effect s)

/-- What an illegal word written to CMD does: dropped while a fault is recorded (30_encoding.md R95 step 2), otherwise
IllegalCommand with FINFO the written value (step 3). -/
def rejectWord (v : Word) (s : State) : State := if s.faulted then s else raise v .illegalCommand s

end Sys2Proof.Machine
end

