-- ==== Sys2Proof/Machine/Operands.lean ====
section
/-! DEFINITION. The word primitives (00_scope.md R10), the byte and word conversions (R11), and the one addressing mode,
descriptor-relative byte offset (20_memory.md R67), with its two checks (R64, R65). -/

namespace Sys2Proof.Machine

/-- `rotl64(a, n) = ((a << n) mod 2^64) + (a >> (64 - n))` for 0 < n < 64 (00_scope.md R10). -/
def rotl64 (a : Word) (n : Nat) : Word := (a <<< n) + (a >>> (64 - n))

/-- `rotr64(a, n) = rotl64(a, 64 - n)`, defined "for completeness and no rule uses it" (00_scope.md R10). -/
def rotr64 (a : Word) (n : Nat) : Word := rotl64 a (64 - n)

/-- The little-endian value of a byte sequence, byte 0 the least significant (20_memory.md R63). -/
def leNat : List Byte → Nat
  | [] => 0
  | b :: rest => b.toNat + 2 ^ 8 * leNat rest

/-- `LE64(b)` of 8 bytes (00_scope.md R11). -/
def le64 (b : List Byte) : Word := BitVec.ofNat 64 (leNat b)

/-- `b[i..j)`, the bytes of indices i ≤ k < j (00_scope.md R11). -/
def bytesFrom (b : List Byte) (i j : Nat) : List Byte := (b.drop i).take (j - i)

/-- `LE128(b) = LE64(b[0..8)) + LE64(b[8..16))·2^64` of 16 bytes (00_scope.md R11, 41_pa_unit.md R146). -/
def le128 (b : List Byte) : Nat := (le64 (bytesFrom b 0 8)).toNat + (le64 (bytesFrom b 8 16)).toNat <<< 64

/-- `bytesLE64(w)`, "the 8-byte sequence whose byte j is `w[8j+7:8j]`" (00_scope.md R11). -/
def bytesLE64 (w : Word) : List Byte := (List.range 8).map (byteOf w)

/-- `words4(b)` of 32 bytes (00_scope.md R11). -/
def words4 (b : List Byte) : NhState :=
  ⟨le64 (bytesFrom b 0 8), le64 (bytesFrom b 8 16), le64 (bytesFrom b 16 24), le64 (bytesFrom b 24 32)⟩

/-- "in range when `D.OFF + D.LEN ≤ MB_CAP`, the sum taken over the naturals with no wrap-around" (10_state.md R35). -/
def State.inRange (s : State) (d : Descriptor) : Bool := decide (d.off.toNat + d.len.toNat ≤ s.params.mbCap)

/-- The condition under which `BufRead(D, j, n)` raises BufferUnderflow: `j + n > D.LEN and CTRL.ZPAD = 0`
(20_memory.md R64). Every command evaluates it in its check phase. -/
def State.underflows (s : State) (d : Descriptor) (j n : Nat) : Bool := decide (d.len.toNat < j + n) && !s.zpad

/-- Logical byte k of a descriptor's buffer: `MB[D.OFF + k]` below the length, 0x00 at or beyond it
(20_memory.md R64, R67). -/
def State.bufByte (s : State) (d : Descriptor) (k : Nat) : Byte :=
  if k < d.len.toNat then s.mbByte (d.off.toNat + k) else 0

/-- `BufRead(D, j, n)` where it does not raise (20_memory.md R64). -/
def State.bufRead (s : State) (d : Descriptor) (j n : Nat) : List Byte :=
  (List.range n).map fun k => s.bufByte d (j + k)

/-- The check phase of the commands that read `n` bytes at `off` of the message: BadDescriptor, then BufferUnderflow
(20_memory.md R65, 60_exceptions.md R203). -/
def messageCheck (s : State) (off n : Nat) : Option Cause :=
  firstFault [(!s.inRange s.msg, .badDescriptor), (s.underflows s.msg off n, .bufferUnderflow)]

/-- `KEY_LEN ≠ 32`, "The comparison is of the whole 64-bit register value" (60_exceptions.md R193). -/
def State.keySizeWrong (s : State) : Bool := decide (s.key.len.toNat ≠ 32)

/-- `NON_LEN ≠ 16` (60_exceptions.md R194). -/
def State.nonceSizeWrong (s : State) : Bool := decide (s.non.len.toNat ≠ 16)

end Sys2Proof.Machine
end

