-- ==== Sys2Proof/Machine/Nh.lean ====
section
/-! DEFINITION. The NH unit (40_nh_unit.md): the round, the absorb, the emit, and the six commands. -/

namespace Sys2Proof.Machine

/-- The mixing permutation, the ten lines of 40_nh_unit.md R112 in order, "each line seeing the values left by the lines
before it"; every addition wraps at 64 bits when it is made (R120). -/
def nhRound (x : NhState) : NhState :=
  let a := x.a + x.b
  let b := rotl64 x.b 13
  let b := b ^^^ a
  let a := rotl64 a 32
  let c := x.c + x.d
  let d := rotl64 x.d 16
  let d := d ^^^ c
  let a := a + d
  let d := rotl64 d 21
  let d := d ^^^ a
  let c := c + b
  let b := rotl64 b 17
  let b := b ^^^ c
  let c := rotl64 c 32
  ⟨a, b, c, d⟩

/-- `n` rounds in sequence. -/
def nhRounds : Nat → NhState → NhState
  | 0, x => x
  | n + 1, x => nhRounds n (nhRound x)

/-- "this round is applied exactly 4 times per complete 32-byte block" (40_nh_unit.md R115). -/
def roundsPerBlock : Nat := 4

/-- The initial state `[C0, C1, C0, C1]` (40_nh_unit.md R111). -/
def nhConstants (p : Params) : NhState := ⟨p.nhC0, p.nhC1, p.nhC0, p.nhC1⟩

/-- "XOR each of the 4 state words with the corresponding block word" (40_nh_unit.md R114). -/
def xorBlock (x w : NhState) : NhState := ⟨x.a ^^^ w.a, x.b ^^^ w.b, x.c ^^^ w.c, x.d ^^^ w.d⟩

/-- The 32-byte block of the message at logical index `off`, four little-endian words (40_nh_unit.md R114). -/
def State.nhBlock (s : State) (off : Nat) : NhState := words4 (s.bufRead s.msg off 32)

/-- One complete block: the xor, then the four rounds (40_nh_unit.md R115). -/
def absorbBlock (x w : NhState) : NhState := nhRounds roundsPerBlock (xorBlock x w)

/-- Step 2 of the digest: blocks 0 to k-1 absorbed in order (40_nh_unit.md R117). -/
def State.nhAbsorbed (s : State) : Nat → NhState
  | 0 => nhConstants s.params
  | k + 1 => absorbBlock (s.nhAbsorbed k) (s.nhBlock (32 * k))

/-- Steps 1 to 3 of the digest: the constants, the complete blocks, and for a partial tail one xor of the window that
starts at 32·k, without a round (40_nh_unit.md R117, R118). -/
def State.nhDigestState (s : State) : NhState :=
  let len := s.msg.len.toNat
  let k := len / 32
  if len % 32 = 0 then s.nhAbsorbed k else xorBlock (s.nhAbsorbed k) (s.nhBlock (32 * k))

/-- Steps 4 and 5: the four words to OUT, little-endian, in state order; OKIND becomes 1 (40_nh_unit.md R116). The
64-bit truncation of step 4 changes nothing (R120). -/
def emitDigest (s : State) : State :=
  { s with
    out := memWrite 24 (bytesLE64 s.ns.d) (memWrite 16 (bytesLE64 s.ns.c)
      (memWrite 8 (bytesLE64 s.ns.b) (memWrite 0 (bytesLE64 s.ns.a) s.out)))
    status := putOkind s.status okindDigest }

/-- The check phase of NH.DIGEST: BadDescriptor, then BufferUnderflow exactly when the length is no multiple of 32 and
ZPAD = 0 (40_nh_unit.md R117). -/
def digestCheck (s : State) : Option Cause :=
  firstFault
    [(!s.inRange s.msg, .badDescriptor),
     (decide (s.msg.len.toNat % 32 ≠ 0) && !s.zpad, .bufferUnderflow)]

/-- NH.INIT, 40_nh_unit.md R111. -/
def execNhInit (s : State) : Result :=
  execute .nhInit none (fun s => { s with ns := nhConstants s.params }) s

/-- NH.XOR off, 40_nh_unit.md R114. -/
def execNhXor (off : Nat) (s : State) : Result :=
  execute (.nhXor off) (messageCheck s off 32) (fun s => { s with ns := xorBlock s.ns (s.nhBlock off) }) s

/-- NH.RND, 40_nh_unit.md R113. -/
def execNhRnd (s : State) : Result :=
  execute .nhRnd none (fun s => { s with ns := nhRound s.ns }) s

/-- NH.ABS off, 40_nh_unit.md R115. -/
def execNhAbs (off : Nat) (s : State) : Result :=
  execute (.nhAbs off) (messageCheck s off 32) (fun s => { s with ns := absorbBlock s.ns (s.nhBlock off) }) s

/-- NH.OUT, 40_nh_unit.md R116. -/
def execNhOut (s : State) : Result :=
  execute .nhOut none emitDigest s

/-- NH.DIGEST, 40_nh_unit.md R117. -/
def execNhDigest (s : State) : Result :=
  execute .nhDigest (digestCheck s) (fun s => emitDigest { s with ns := s.nhDigestState }) s

end Sys2Proof.Machine
end

