-- ==== Sys2Proof/Machine/Pa.lean ====
section
/-! DEFINITION. The PA unit (41_pa_unit.md): the clamp, the accumulation, multiply and reduce, the emit, and the eight
commands. It is not the published Poly1305 (00_scope.md R2). -/

namespace Sys2Proof.Machine

/-- `MASK_LO`, for r0 and s0 (00_scope.md R6). -/
def maskLo : Word := 0x0FFFFFFFFFFFFFFF

/-- `MASK_HI`, for r1 and s1 (00_scope.md R6). -/
def maskHi : Word := 0x0FFFFFFFFFFFFFFC

/-- `clamp(key)` of 32 bytes (41_pa_unit.md R141). -/
def clamp (key : List Byte) : Limbs where
  r0 := le64 (bytesFrom key 0 8) &&& maskLo
  r1 := le64 (bytesFrom key 8 16) &&& maskHi
  s0 := le64 (bytesFrom key 16 24) &&& maskLo
  s1 := le64 (bytesFrom key 24 32) &&& maskHi

/-- The width of ACC as a modulus: every accumulator operation is reduced modulo 2^132 (00_scope.md R14). -/
def accModulus : Nat := 2 ^ 132

/-- `mulred(x, h, l) = (((x + (h << 32)) mod 2^132) · l) mod 2^132` (41_pa_unit.md R147). -/
def mulred (x h l : Nat) : Nat := (x + h <<< 32) % accModulus * l % accModulus

/-- `ACC <- mulred(ACC, h, l)`. -/
def mulredAcc (x : Acc) (h l : Word) : Acc := BitVec.ofNat 132 (mulred x.toNat h.toNat l.toNat)

/-- `(ACC + LE128(b)) mod 2^132` for a 16-byte stride (41_pa_unit.md R144 to R146). -/
def addStride (x : Acc) (b : List Byte) : Acc := BitVec.ofNat 132 ((x.toNat + le128 b) % accModulus)

/-- The nonce stride (41_pa_unit.md R144). -/
def State.nonceStride (s : State) : List Byte := s.bufRead s.non 0 16

/-- The message stride at logical index `off` (41_pa_unit.md R145). -/
def State.messageStride (s : State) (off : Nat) : List Byte := s.bufRead s.msg off 16

/-- The limbs of the key bytes (41_pa_unit.md R142). -/
def State.keyLimbs (s : State) : Limbs := clamp (s.bufRead s.key 0 32)

/-- Steps 3 and 4 of the authentication: from 0, stride 0 is the nonce, strides 1 to n are the message's
(41_pa_unit.md R152, R153). -/
def State.paAccumulated (s : State) : Nat → Acc
  | 0 => addStride 0 s.nonceStride
  | n + 1 => addStride (s.paAccumulated n) (s.messageStride (16 * n))

/-- `n = ceil(mlen / 16)` message strides (41_pa_unit.md R152). -/
def strideCount (mlen : Nat) : Nat := (mlen + 15) / 16

/-- `MemWrite` of `tagbytes(ACC)` and of sixteen zero bytes; OKIND becomes 2 (41_pa_unit.md R150, R151). -/
def emitTag (s : State) : State :=
  { s with
    out := memWrite 16 (List.replicate 16 0)
      (memWrite 8 (bytesLE64 (s.acc.extractLsb' 64 64)) (memWrite 0 (bytesLE64 (s.acc.extractLsb' 0 64)) s.out))
    status := putOkind s.status okindTag }

/-- The check phase of PA.AUTH, in the order of 41_pa_unit.md R152. -/
def authCheck (s : State) : Option Cause :=
  firstFault
    [(s.keySizeWrong, .invalidKeySize),
     (s.nonceSizeWrong, .invalidNonceSize),
     (!(s.inRange s.key && s.inRange s.non && s.inRange s.msg), .badDescriptor),
     (decide (s.msg.len.toNat % 16 ≠ 0) && !s.zpad, .bufferUnderflow)]

/-- PA.KEY, 41_pa_unit.md R142. -/
def execPaKey (s : State) : Result :=
  execute .paKey (firstFault [(s.keySizeWrong, .invalidKeySize), (!s.inRange s.key, .badDescriptor)])
    (fun s => { s with limbs := s.keyLimbs }) s

/-- PA.CLR, 41_pa_unit.md R143. -/
def execPaClr (s : State) : Result :=
  execute .paClr none (fun s => { s with acc := 0 }) s

/-- PA.ADDN, 41_pa_unit.md R144. -/
def execPaAddn (s : State) : Result :=
  execute .paAddn (firstFault [(s.nonceSizeWrong, .invalidNonceSize), (!s.inRange s.non, .badDescriptor)])
    (fun s => { s with acc := addStride s.acc s.nonceStride }) s

/-- PA.ADDM off, 41_pa_unit.md R145. -/
def execPaAddm (off : Nat) (s : State) : Result :=
  execute (.paAddm off) (messageCheck s off 16)
    (fun s => { s with acc := addStride s.acc (s.messageStride off) }) s

/-- PA.MULR, 41_pa_unit.md R148. -/
def execPaMulr (s : State) : Result :=
  execute .paMulr none (fun s => { s with acc := mulredAcc s.acc s.limbs.r1 s.limbs.r0 }) s

/-- PA.MULS, 41_pa_unit.md R149; the balanced formula of the source's step 6 (90_conflicts.md C3). -/
def execPaMuls (s : State) : Result :=
  execute .paMuls none (fun s => { s with acc := mulredAcc s.acc s.limbs.s1 s.limbs.s0 }) s

/-- PA.TAG, 41_pa_unit.md R151. -/
def execPaTag (s : State) : Result :=
  execute .paTag none emitTag s

/-- The execute phase of PA.AUTH: the limbs, the accumulation, the three multiply-reduce stages by r, s and s
(90_conflicts.md C6), the emit (41_pa_unit.md R152). -/
def authEffect (s : State) : State :=
  let l := s.keyLimbs
  let x := s.paAccumulated (strideCount s.msg.len.toNat)
  let x := mulredAcc x l.r1 l.r0
  let x := mulredAcc x l.s1 l.s0
  let x := mulredAcc x l.s1 l.s0
  emitTag { s with limbs := l, acc := x }

/-- PA.AUTH, 41_pa_unit.md R152. -/
def execPaAuth (s : State) : Result :=
  execute .paAuth (authCheck s) authEffect s

end Sys2Proof.Machine
end

