-- ==== Sys2Proof/Machine/Sys.lean ====
section
/-! DEFINITION. The system commands (42_system.md): the only commands executed while a fault is recorded. Neither can
fault (R183). -/

namespace Sys2Proof.Machine

/-- SYS.CLRF, 42_system.md R181. -/
def execSysClrf (s : State) : Result := .next (clearFault s)

/-- SYS.RST, 42_system.md R182. -/
def execSysRst (s : State) : Result := .next (softReset s)

end Sys2Proof.Machine
end

