-- ==== Sys2Proof/Machine/Dispatch.lean ====
section
/-! DEFINITION. One arm per command (30_encoding.md R94), each a direct call of its meaning. -/

namespace Sys2Proof.Machine

def exec (i : Instr) (s : State) : Host.Outcome State Fault Refusal :=
  match i with
  | .sysClrf => Sys2Proof.Machine.execSysClrf s
  | .sysRst => Sys2Proof.Machine.execSysRst s
  | .nhInit => Sys2Proof.Machine.execNhInit s
  | .nhXor off => Sys2Proof.Machine.execNhXor off s
  | .nhRnd => Sys2Proof.Machine.execNhRnd s
  | .nhAbs off => Sys2Proof.Machine.execNhAbs off s
  | .nhOut => Sys2Proof.Machine.execNhOut s
  | .nhDigest => Sys2Proof.Machine.execNhDigest s
  | .paKey => Sys2Proof.Machine.execPaKey s
  | .paClr => Sys2Proof.Machine.execPaClr s
  | .paAddn => Sys2Proof.Machine.execPaAddn s
  | .paAddm off => Sys2Proof.Machine.execPaAddm off s
  | .paMulr => Sys2Proof.Machine.execPaMulr s
  | .paMuls => Sys2Proof.Machine.execPaMuls s
  | .paTag => Sys2Proof.Machine.execPaTag s
  | .paAuth => Sys2Proof.Machine.execPaAuth s

end Sys2Proof.Machine
end

