-- ==== Sys2Proof/Machine/Host.lean ====
section
/-! DEFINITION. The host's side (70_reset_and_hazards.md R227): the register map and access rights of 10_state.md R40 to
R44, the MB window, the write to CMD that issues a command, the reset input, and one access of the host as one step. -/

namespace Sys2Proof.Machine

/-- The registers of the block at offsets 0x000 to 0xFFF (10_state.md R40). -/
inductive HostReg where
  | cmd | status | ctrl | finfo
  | keyOff | keyLen | nonOff | nonLen | msgOff | msgLen
  | ns0 | ns1 | ns2 | ns3
  | r0 | r1 | s0 | s1
  | acc0 | acc1 | acc2
  | outw0 | outw1 | outw2 | outw3
deriving DecidableEq, Repr

/-- The register at each offset (10_state.md R40); "Every other offset in 0x000 to 0xFFF is unmapped". -/
def regAt : Nat → Option HostReg
  | 0x000 => some .cmd
  | 0x008 => some .status
  | 0x010 => some .ctrl
  | 0x018 => some .finfo
  | 0x020 => some .keyOff
  | 0x028 => some .keyLen
  | 0x030 => some .nonOff
  | 0x038 => some .nonLen
  | 0x040 => some .msgOff
  | 0x048 => some .msgLen
  | 0x080 => some .ns0
  | 0x088 => some .ns1
  | 0x090 => some .ns2
  | 0x098 => some .ns3
  | 0x0A0 => some .r0
  | 0x0A8 => some .r1
  | 0x0B0 => some .s0
  | 0x0B8 => some .s1
  | 0x0C0 => some .acc0
  | 0x0C8 => some .acc1
  | 0x0D0 => some .acc2
  | 0x100 => some .outw0
  | 0x108 => some .outw1
  | 0x110 => some .outw2
  | 0x118 => some .outw3
  | _ => none

/-- The offset of each register (10_state.md R40), for programs. -/
def HostReg.offset : HostReg → Nat
  | .cmd => 0x000
  | .status => 0x008
  | .ctrl => 0x010
  | .finfo => 0x018
  | .keyOff => 0x020
  | .keyLen => 0x028
  | .nonOff => 0x030
  | .nonLen => 0x038
  | .msgOff => 0x040
  | .msgLen => 0x048
  | .ns0 => 0x080
  | .ns1 => 0x088
  | .ns2 => 0x090
  | .ns3 => 0x098
  | .r0 => 0x0A0
  | .r1 => 0x0A8
  | .s0 => 0x0B0
  | .s1 => 0x0B8
  | .acc0 => 0x0C0
  | .acc1 => 0x0C8
  | .acc2 => 0x0D0
  | .outw0 => 0x100
  | .outw1 => 0x108
  | .outw2 => 0x110
  | .outw3 => 0x118

/-- `n` bytes of OUT from byte `k`, the lowest in the least significant lane (10_state.md R29, R42). -/
def State.outValue (s : State) (k n : Nat) : Word := le64 (bytesFrom s.out.toList k (k + n))

/-- What a host read of each register returns (10_state.md R28, R29, R33, R40). -/
def State.regValue (s : State) : HostReg → Word
  | .cmd => 0
  | .status => s.status
  | .ctrl => s.ctrl
  | .finfo => s.finfo
  | .keyOff => s.key.off
  | .keyLen => s.key.len
  | .nonOff => s.non.off
  | .nonLen => s.non.len
  | .msgOff => s.msg.off
  | .msgLen => s.msg.len
  | .ns0 => s.ns.a
  | .ns1 => s.ns.b
  | .ns2 => s.ns.c
  | .ns3 => s.ns.d
  | .r0 => s.limbs.r0
  | .r1 => s.limbs.r1
  | .s0 => s.limbs.s0
  | .s1 => s.limbs.s1
  | .acc0 => s.acc.extractLsb' 0 64
  | .acc1 => s.acc.extractLsb' 64 64
  | .acc2 => (s.acc.extractLsb' 128 4).setWidth 64
  | .outw0 => s.outValue 0 8
  | .outw1 => s.outValue 8 8
  | .outw2 => s.outValue 16 8
  | .outw3 => s.outValue 24 8

/-- A host write of `v` to CMD (30_encoding.md R95): decode, then execute the command, or reject the word. The dropping
of commands while a fault is recorded (step 2) is in `execute` and `rejectWord`. -/
def issue (v : Word) (s : State) : Result :=
  match decode v with
  | .command i => exec i s
  | .illegal _ => .next (rejectWord v s)

/-- A host write of `v` to a register (10_state.md R43): all 64 bits to a descriptor register or `NS[i]`, bit 0 to CTRL,
a command to CMD; "A host write to a read-only register is ignored". -/
def regWrite (v : Word) (s : State) : HostReg → Result
  | .cmd => issue v s
  | .ctrl => .next { s with ctrl := ctrlStored v }
  | .keyOff => .next { s with key := { s.key with off := v } }
  | .keyLen => .next { s with key := { s.key with len := v } }
  | .nonOff => .next { s with non := { s.non with off := v } }
  | .nonLen => .next { s with non := { s.non with len := v } }
  | .msgOff => .next { s with msg := { s.msg with off := v } }
  | .msgLen => .next { s with msg := { s.msg with len := v } }
  | .ns0 => .next { s with ns := { s.ns with a := v } }
  | .ns1 => .next { s with ns := { s.ns with b := v } }
  | .ns2 => .next { s with ns := { s.ns with c := v } }
  | .ns3 => .next { s with ns := { s.ns with d := v } }
  | .status | .finfo | .r0 | .r1 | .s0 | .s1 | .acc0 | .acc1 | .acc2 => .next s
  | .outw0 | .outw1 | .outw2 | .outw3 => .next s

/-- The window of MB begins here (10_state.md R41). -/
def windowBase : Nat := 0x01000000

/-- The register block ends here (10_state.md R40). -/
def blockEnd : Nat := 0x1000

/-- OUT is readable byte by byte at offsets 0x100 to 0x11F (10_state.md R42). -/
def outBase : Nat := 0x100

/-- The widths a window access or a read of OUT may have (10_state.md R42). -/
def widthOk (width : Nat) : Bool := width == 1 || width == 2 || width == 4 || width == 8

/-- Where a host access falls (10_state.md R40 to R42, R44). The kinds that have a meaning name a register, bytes of OUT
(a read only) or bytes of MB. -/
inductive Target where
  | register (r : HostReg)
  | outBytes (k : Nat)
  | window (a : Nat)
  | unsupported
  | unmapped
deriving DecidableEq, Repr

/-- The target of an access of `width` bytes at `offset`. Where an access is both of an unsupported form and unmapped, the
reason given is the form (notes/assumptions/9.md); either way it is refused. -/
def targetOf (cap : Nat) (isRead : Bool) (offset width : Nat) : Target :=
  if offset < blockEnd then
    if isRead && widthOk width && decide (outBase ≤ offset) && decide (offset + width ≤ outBase + 32) then
      .outBytes (offset - outBase)
    else if width = 8 ∧ offset % 8 = 0 then
      match regAt offset with
      | some r => .register r
      | none => .unmapped
    else .unsupported
  else if offset < windowBase then .unmapped
  else if widthOk width then
    if offset - windowBase + width ≤ cap then .window (offset - windowBase) else .unmapped
  else .unsupported

/-- `n` bytes of MB from address `a`, zero-extended to 64 bits (10_state.md R42). -/
def State.windowValue (s : State) (a n : Nat) : Word := le64 (s.memRead a n)

/-- A host write (70_reset_and_hazards.md R227). -/
def hostWrite (offset width : Nat) (v : Word) (s : State) : Result :=
  match targetOf s.params.mbCap false offset width with
  | .register r => regWrite v s r
  | .window a => .next { s with mb := Memory.writeBytes s.mb a v width }
  | .outBytes _ => .refused (.unsupportedAccess offset width)
  | .unsupported => .refused (.unsupportedAccess offset width)
  | .unmapped => .refused (.unmappedOffset offset)

/-- A host read: "A host read never changes state" (10_state.md R43); the value goes to the host's own `reply`
(notes/assumptions/2.md). -/
def hostRead (offset width : Nat) (s : State) : Result :=
  match targetOf s.params.mbCap true offset width with
  | .register r => .next { s with reply := some (s.regValue r) }
  | .window a => .next { s with reply := some (s.windowValue a width) }
  | .outBytes k => .next { s with reply := some (s.outValue k width) }
  | .unsupported => .refused (.unsupportedAccess offset width)
  | .unmapped => .refused (.unmappedOffset offset)

/-- One access of the host, whole (70_reset_and_hazards.md R228). -/
def hostAccess (x : HostAccess) (s : State) : Result :=
  match x with
  | .write offset width v => hostWrite offset width v s
  | .read offset width => hostRead offset width s
  | .hardReset => .next (hardReset s)

/-- The engine's step: the host's next access, if there is one (20_memory.md R73: in the order the host issues them).
With none the engine is idle and nothing changes (60_exceptions.md R210; notes/assumptions/8.md). -/
def serve (s : State) : Result :=
  match s.pending with
  | [] => .next s
  | x :: rest => hostAccess x { s with pending := rest }

/-- `s` with a write of `v` to CMD as the host's next access, before what it had planned. -/
def State.withCommand (s : State) (v : Word) : State :=
  { s with pending := .write HostReg.cmd.offset 8 v :: s.pending }

end Sys2Proof.Machine
end

