-- ==== Sys2Proof/Machine/Step.lean ====
section
/-! DEFINITION. One step of the machine, and the host's way of placing a command where the next step runs it. -/

namespace Sys2Proof.Machine

/-- One step: one access of the host, which for a write to CMD is one whole command (70_reset_and_hazards.md R228). -/
def step (s : State) : Host.Outcome State Fault Refusal := serve s

/-- `s` with the table's word written to CMD by the host's next access: the engine fetches nothing, "a command is the
value of the `CMD` write itself" (20_memory.md R76; notes/assumptions/1.md). -/
def State.withFetchWord (s : State) (nbits w : Nat) : State := s.withCommand (tableWord nbits w)

end Sys2Proof.Machine
end

