-- ==== Sys2Proof/Safety.lean ====
section
/-! DEFINITION. The terms the statements are written in: the invariant of a legal state, what recording a fault is, the
fault conditions of each command and their priority, sequences of commands, and the values of byte sequences as sums. -/

namespace Sys2Proof.Machine

/-! ### The faults of each command (60_exceptions.md) -/

/-- "Faults each command can raise, in priority order, complete" (60_exceptions.md R203). -/
def faultsOf : Instr → List Cause
  | .sysClrf | .sysRst | .nhInit | .nhRnd | .nhOut | .paClr | .paMulr | .paMuls | .paTag => []
  | .nhXor _ | .nhAbs _ | .nhDigest | .paAddm _ => [.badDescriptor, .bufferUnderflow]
  | .paKey => [.invalidKeySize, .badDescriptor]
  | .paAddn => [.invalidNonceSize, .badDescriptor]
  | .paAuth => [.invalidKeySize, .invalidNonceSize, .badDescriptor, .bufferUnderflow]

/-- A descriptor reaches beyond the message buffer: `OFF + LEN > MB_CAP` over the naturals (60_exceptions.md R197,
10_state.md R35). -/
abbrev outOfRange (s : State) (d : Descriptor) : Prop := s.params.mbCap < d.off.toNat + d.len.toNat

/-- The condition under which a command would read past its descriptor's end (60_exceptions.md R196, "Exact
conditions"). -/
abbrev readsPastEnd (i : Instr) (s : State) : Prop :=
  match i with
  | .nhXor off | .nhAbs off => s.msg.len.toNat < off + 32
  | .nhDigest => s.msg.len.toNat % 32 ≠ 0
  | .paAddm off => s.msg.len.toNat < off + 16
  | .paAuth => s.msg.len.toNat % 16 ≠ 0
  | .sysClrf | .sysRst | .nhInit | .nhRnd | .nhOut | .paKey | .paClr | .paAddn | .paMulr | .paMuls | .paTag => False

/-- One of the descriptors the command uses is out of range (20_memory.md R65). -/
abbrev usesBadDescriptor (i : Instr) (s : State) : Prop :=
  match i with
  | .nhXor _ | .nhAbs _ | .nhDigest | .paAddm _ => outOfRange s s.msg
  | .paKey => outOfRange s s.key
  | .paAddn => outOfRange s s.non
  | .paAuth => outOfRange s s.key ∨ outOfRange s s.non ∨ outOfRange s s.msg
  | .sysClrf | .sysRst | .nhInit | .nhRnd | .nhOut | .paClr | .paMulr | .paMuls | .paTag => False

/-- The condition of each cause for each command (60_exceptions.md R192 to R197). A command never is an illegal word. -/
abbrev faultCondition (i : Instr) (c : Cause) (s : State) : Prop :=
  match c with
  | .illegalCommand => False
  | .invalidKeySize => (i = .paKey ∨ i = .paAuth) ∧ s.key.len.toNat ≠ 32
  | .invalidNonceSize => (i = .paAddn ∨ i = .paAuth) ∧ s.non.len.toNat ≠ 16
  | .badDescriptor => usesBadDescriptor i s
  | .bufferUnderflow => readsPastEnd i s ∧ ctrlZpad s.ctrl = 0

/-- The order of 60_exceptions.md R200, the first reported having the least number. -/
def Cause.priority : Cause → Nat
  | .illegalCommand => 0
  | .invalidKeySize => 1
  | .invalidNonceSize => 2
  | .badDescriptor => 3
  | .bufferUnderflow => 4

/-- `t` is `s` with a fault recorded (60_exceptions.md R195): FAULT is 1, CAUSE the code, FINFO the word; OKIND and the
reserved bits of STATUS and every other field are as in `s`. -/
def FaultRecorded (code : Nat) (w : Word) (s t : State) : Prop :=
  statusFault t.status = 1 ∧ statusCause t.status = code ∧ statusOkind t.status = statusOkind s.status ∧
  slice t.status 3 1 = slice s.status 3 1 ∧ slice t.status 63 10 = slice s.status 63 10 ∧
  t = { s with status := t.status, finfo := w }

/-- STATUS changes in OKIND alone, which becomes `k` (10_state.md R30). -/
def OkindBecomes (k : Nat) (s t : State) : Prop :=
  statusOkind t.status = k ∧ statusFault t.status = statusFault s.status ∧
  statusCause t.status = statusCause s.status ∧
  slice t.status 3 1 = slice s.status 3 1 ∧ slice t.status 63 10 = slice s.status 63 10

/-! ### Legal states -/

/-- The reserved bits read as 0 and the invariant of 10_state.md R30; "value 3 never occurs". -/
abbrev statusLegal (s : State) : Prop :=
  slice s.status 3 1 = 0 ∧ slice s.status 63 10 = 0 ∧ statusOkind s.status ≠ 3 ∧
  (statusFault s.status = 0 → statusCause s.status = 0) ∧
  (statusFault s.status = 1 → 1 ≤ statusCause s.status ∧ statusCause s.status ≤ 5)

/-- Bits 63:1 of CTRL read as 0 (10_state.md R31). -/
abbrev ctrlLegal (s : State) : Prop := slice s.ctrl 63 1 = 0

/-- The clamping invariant (10_state.md R26). -/
abbrev limbsClamped (s : State) : Prop :=
  s.limbs.r0 = s.limbs.r0 &&& 0x0FFFFFFFFFFFFFFF ∧ s.limbs.s0 = s.limbs.s0 &&& 0x0FFFFFFFFFFFFFFF ∧
  s.limbs.r1 = s.limbs.r1 &&& 0x0FFFFFFFFFFFFFFC ∧ s.limbs.s1 = s.limbs.s1 &&& 0x0FFFFFFFFFFFFFFC

/-- A word in FINFO that a fault of cause code `code` can have recorded (60_exceptions.md R191, R203). -/
def explains (w : Word) (code : Nat) : Bool :=
  match decode w with
  | .illegal _ => code == Cause.illegalCommand.code
  | .command i => (faultsOf i).any fun c => c.code == code

/-- FINFO is 0 when no fault is recorded (10_state.md R32), else the word of the command that raised it (60_exceptions.md
R191). -/
abbrev finfoLegal (s : State) : Prop :=
  (statusFault s.status = 0 → s.finfo = 0) ∧
  (statusFault s.status = 1 → explains s.finfo (statusCause s.status) = true)

/-- OKIND says what OUT holds (10_state.md R29, R30): nothing since reset, when OUT is zero; a tag, when its upper half is
zero. -/
abbrev outLegal (s : State) : Prop :=
  (statusOkind s.status = 0 → s.out = Vector.replicate 32 0) ∧
  (statusOkind s.status = 2 → ∀ k : Fin 32, 16 ≤ k.val → s.out[k] = 0)

/-- MB is in its canonical form and lists addresses below MB_CAP only (10_state.md R36). -/
abbrev mbLegal (s : State) : Prop := Memory.wf s.mb ∧ ∀ c ∈ s.mb, c.1 < s.params.mbCap

/-- The constraint on the capacity (00_scope.md R7). -/
abbrev paramsLegal (s : State) : Prop := 1 ≤ s.params.mbCap ∧ s.params.mbCap ≤ 2 ^ 24

/-- The invariant of every reachable state. -/
abbrev State.Inv (s : State) : Prop :=
  statusLegal s ∧ ctrlLegal s ∧ limbsClamped s ∧ finfoLegal s ∧ outLegal s ∧ mbLegal s ∧ paramsLegal s

/-! ### Values of byte sequences, as the sums of 00_scope.md R11 -/

/-- `LE64` of the 8 logical bytes of a descriptor's buffer from index `k`. -/
def bufWord (s : State) (d : Descriptor) (k : Nat) : Word :=
  BitVec.ofNat 64 (∑ j ∈ Finset.range 8, (s.bufByte d (k + j)).toNat * 2 ^ (8 * j))

/-- `LE128` of the 16 logical bytes of a descriptor's buffer from index `k`. -/
def bufStride (s : State) (d : Descriptor) (k : Nat) : Nat :=
  ∑ j ∈ Finset.range 16, (s.bufByte d (k + j)).toNat * 2 ^ (8 * j)

/-- The four words of the 32-byte block of the message at index `k`, each xored into its word of `x`. -/
def xorMessage (s : State) (k : Nat) (x : NhState) : NhState :=
  { a := x.a ^^^ bufWord s s.msg k
    b := x.b ^^^ bufWord s s.msg (k + 8)
    c := x.c ^^^ bufWord s s.msg (k + 16)
    d := x.d ^^^ bufWord s s.msg (k + 24) }

/-- The round in single-assignment form (40_nh_unit.md R112, second form). -/
def roundSpec (x : NhState) : NhState :=
  let a1 := x.a + x.b
  let b1 := x.b.rotateLeft 13 ^^^ a1
  let a2 := a1.rotateLeft 32
  let c1 := x.c + x.d
  let d1 := x.d.rotateLeft 16 ^^^ c1
  let a3 := a2 + d1
  let d2 := d1.rotateLeft 21 ^^^ a3
  let c2 := c1 + b1
  let b2 := b1.rotateLeft 17 ^^^ c2
  let c3 := c2.rotateLeft 32
  { a := a3, b := b2, c := c3, d := d2 }

/-- Byte k of the digest of four words: byte `k mod 8` of word `k div 8`, little-endian, in state order
(40_nh_unit.md R116). -/
def digestByte (x : NhState) (k : Nat) : Byte :=
  let w := if k < 8 then x.a else if k < 16 then x.b else if k < 24 then x.c else x.d
  BitVec.ofNat 8 (w.toNat / 2 ^ (8 * (k % 8)))

/-- Byte k of OUT for the accumulator value `x`: the little-endian bytes of `x mod 2^128`, then zeros
(41_pa_unit.md R150, R151). -/
def tagByte (x k : Nat) : Byte := if k < 16 then BitVec.ofNat 8 (x / 2 ^ (8 * k)) else 0

/-- `(((x + (h << 32)) mod 2^132) · l) mod 2^132` (41_pa_unit.md R147). -/
def mulredSpec (x h l : Nat) : Nat := (x + h <<< 32) % 2 ^ 132 * l % 2 ^ 132

/-- The sum of the nonce stride and the n message strides (41_pa_unit.md R153). -/
def strideSum (s : State) (n : Nat) : Nat :=
  bufStride s s.non 0 + ∑ i ∈ Finset.range n, bufStride s s.msg (16 * i)

/-- The masked word of the key at byte `k` (41_pa_unit.md R141). -/
def keyLimb (s : State) (k : Nat) (mask : Word) : Word := bufWord s s.key k &&& mask

/-- The NH state of the digest of the message (40_nh_unit.md R117, R118): the constants, then for each complete block the
xor and four rounds, then for a partial tail the xor alone. -/
def digestSpec (s : State) : NhState :=
  let k := s.msg.len.toNat / 32
  let full :=
    (List.range k).foldl
      (fun x i => roundSpec (roundSpec (roundSpec (roundSpec (xorMessage s (32 * i) x)))))
      { a := s.params.nhC0, b := s.params.nhC1, c := s.params.nhC0, d := s.params.nhC1 }
  if s.msg.len.toNat % 32 = 0 then full else xorMessage s (32 * k) full

/-- The limbs of the key (41_pa_unit.md R141). -/
def limbsSpec (s : State) : Limbs :=
  { r0 := keyLimb s 0 0x0FFFFFFFFFFFFFFF, r1 := keyLimb s 8 0x0FFFFFFFFFFFFFFC
    s0 := keyLimb s 16 0x0FFFFFFFFFFFFFFF, s1 := keyLimb s 24 0x0FFFFFFFFFFFFFFC }

/-- The accumulator after the three multiply-reduce stages, by r, by s and by s again (41_pa_unit.md R152). -/
def authSpec (s : State) : Nat :=
  let l := limbsSpec s
  let x := strideSum s ((s.msg.len.toNat + 15) / 16) % 2 ^ 132
  let x := mulredSpec x l.r1.toNat l.r0.toNat
  let x := mulredSpec x l.s1.toNat l.s0.toNat
  mulredSpec x l.s1.toNat l.s0.toNat

/-- The same computation with every reduction modulo 2^128 (41_pa_unit.md R154 (b)). -/
def authSpecModuloTag (s : State) : Nat :=
  let stage := fun x h l : Nat => (x + h <<< 32) % 2 ^ 128 * l % 2 ^ 128
  let l := limbsSpec s
  let x := strideSum s ((s.msg.len.toNat + 15) / 16) % 2 ^ 128
  let x := stage x l.r1.toNat l.r0.toNat
  let x := stage x l.s1.toNat l.s0.toNat
  stage x l.s1.toNat l.s0.toNat

/-- `n` bytes of OUT from byte `k` as one little-endian value (10_state.md R29, R42). -/
def outSum (s : State) (k n : Nat) : Word :=
  BitVec.ofNat 64 (∑ j ∈ Finset.range n, (s.out.toList.getD (k + j) 0).toNat * 2 ^ (8 * j))

/-- `n` bytes of MB from address `a` as one little-endian value (20_memory.md R63). -/
def mbSum (s : State) (a n : Nat) : Word :=
  BitVec.ofNat 64 (∑ j ∈ Finset.range n, (s.mbByte (a + j)).toNat * 2 ^ (8 * j))

/-- Every byte the host can read from MB is the same in both states: an MB address is below MB_CAP, and the comparison
is made at every natural. -/
def sameMb (s t : State) : Prop := ∀ a : Nat, t.mbByte a = s.mbByte a

/-- The commands of the NH unit (30_encoding.md R94). -/
def isNhCommand : Instr → Bool
  | .nhInit | .nhXor _ | .nhRnd | .nhAbs _ | .nhOut | .nhDigest => true
  | .sysClrf | .sysRst => false
  | .paKey | .paClr | .paAddn | .paAddm _ | .paMulr | .paMuls | .paTag | .paAuth => false

/-- The commands of the PA unit (30_encoding.md R94). -/
def isPaCommand : Instr → Bool
  | .paKey | .paClr | .paAddn | .paAddm _ | .paMulr | .paMuls | .paTag | .paAuth => true
  | .sysClrf | .sysRst => false
  | .nhInit | .nhXor _ | .nhRnd | .nhAbs _ | .nhOut | .nhDigest => false

/-- The system commands, "the only commands executed while `STATUS.FAULT = 1`" (42_system.md). -/
def isSysCommand : Instr → Bool
  | .sysClrf | .sysRst => true
  | .nhInit | .nhXor _ | .nhRnd | .nhAbs _ | .nhOut | .nhDigest => false
  | .paKey | .paClr | .paAddn | .paAddm _ | .paMulr | .paMuls | .paTag | .paAuth => false

/-! ### Sequences -/

/-- Commands issued one after another, as a host does with `CMD` writes (30_encoding.md R99). -/
def execAll : List Instr → State → Result
  | [], s => .next s
  | i :: rest, s =>
    match exec i s with
    | .next t => execAll rest t
    | .fault r => .fault r
    | .refused r => .refused r

/-- The primitive sequence of a digest of `len` bytes (40_nh_unit.md R119). -/
def digestSequence (len : Nat) : List Instr :=
  [.nhInit] ++ (List.range (len / 32)).map (fun i => .nhAbs (32 * i)) ++
  (if len % 32 = 0 then [] else [.nhXor (32 * (len / 32))]) ++ [.nhOut]

/-- The primitive sequence of an authentication of `mlen` message bytes, `ceil(mlen / 16)` strides
(41_pa_unit.md R152). -/
def authSequence (mlen : Nat) : List Instr :=
  [.paKey, .paClr, .paAddn] ++ (List.range ((mlen + 15) / 16)).map (fun i => .paAddm (16 * i)) ++
  [.paMulr, .paMuls, .paMuls, .paTag]

end Sys2Proof.Machine
end

