-- ==== Sys2Proof/Certificates/Slice0/Obligations.lean ====
section
/-! DEFINITION. The statements for the provers. Each docstring names the rule of spec/ it is about, or the log entry where
the choice is the model's. -/

open Sys2Proof Sys2Proof.Machine

/-! ### Encoding -/

/-- 30_encoding.md R94, sections 2 to 5: the words of the sixteen commands, written out, and three illegal words. -/
def Obligations.CommandWordsDecode : Prop :=
  decode 0x0000000001000000 = .command .sysClrf ∧ decode 0x0000000002000000 = .command .sysRst ∧
  decode 0x0000000010000000 = .command .nhInit ∧ decode 0x0000000011FFFFFF = .command (.nhXor 0xFFFFFF) ∧
  decode 0x0000000012000000 = .command .nhRnd ∧ decode 0x0000000013000020 = .command (.nhAbs 32) ∧
  decode 0x0000000014000000 = .command .nhOut ∧ decode 0x000000001F000000 = .command .nhDigest ∧
  decode 0x0000000020000000 = .command .paKey ∧ decode 0x0000000021000000 = .command .paClr ∧
  decode 0x0000000022000000 = .command .paAddn ∧ decode 0x0000000023000010 = .command (.paAddm 16) ∧
  decode 0x0000000024000000 = .command .paMulr ∧ decode 0x0000000025000000 = .command .paMuls ∧
  decode 0x0000000026000000 = .command .paTag ∧ decode 0x000000002F000000 = .command .paAuth ∧
  decode 0x0000000000000000 = .illegal .unassignedOpcode ∧
  decode 0x0000000110000000 = .illegal .upperHalfNotZero ∧
  decode 0x0000000001000001 = .illegal .operandNotZero

/-- 30_encoding.md sections 2 to 4: decoding the encoding of any well-formed command gives the command, with every offset
the field admits. -/
def Obligations.DecodeOfEncodedCommand : Prop :=
  ∀ i : Instr, i.wellFormed = true → decode (encode i) = .command i

/-- 30_encoding.md R95 ("either exactly one of the sixteen commands or Illegal"): a word that decodes to a command is that
command's one encoding, so the word a fault records, the encoding of the command, is the word that was written. -/
def Obligations.EncodeOfDecodedWord : Prop :=
  ∀ (v : Word) (i : Instr), decode v = .command i → i.wellFormed = true ∧ encode i = v

/-- spec/opcode_table.json with 30_encoding.md R91, R92: a word decodes to a command with a mnemonic exactly when it
matches the row of that mnemonic under the row's mask. -/
def Obligations.DecodeAcceptsExactlyTheOpcodeTable : Prop :=
  ∀ (v : Word) (m : String),
    (∃ i, decode v = .command i ∧ i.mnemonic = m) ↔ ∃ r ∈ opcodeRows, r.mnemonic = m ∧ v &&& r.mask = r.pattern

/-- 30_encoding.md R96: which words are illegal. -/
def Obligations.IllegalWordsExactly : Prop :=
  ∀ v : Word,
    (∃ why, decode v = .illegal why) ↔
      (slice v 63 32 ≠ 0 ∨
       slice v 31 24 ∉ [0x01, 0x02, 0x10, 0x11, 0x12, 0x13, 0x14, 0x1F,
                        0x20, 0x21, 0x22, 0x23, 0x24, 0x25, 0x26, 0x2F] ∨
       (slice v 31 24 ∉ [0x11, 0x13, 0x23] ∧ slice v 23 0 ≠ 0))

/-! ### Delivery and dispatch -/

/-- 30_encoding.md R95, 20_memory.md R76: a write of a command's word to CMD runs that command, on the state in which the
host has made this access. The other part of a step, taking the access from `pending`, is the model's own (log 1). -/
def Obligations.StepRunsDecodedCommand : Prop :=
  ∀ (s : State) (v : Word) (rest : List HostAccess) (i : Instr),
    s.pending = .write 0x000 8 v :: rest → decode v = .command i →
    step s = exec i { s with pending := rest }

/-- 60_exceptions.md R192: an illegal word raises IllegalCommand when no fault is recorded. The list of accesses is
the model's own (log 1). -/
def Obligations.IllegalWordRaisesIllegalCommand : Prop :=
  ∀ (s : State) (v : Word) (rest : List HostAccess) (why : IllegalReason),
    s.pending = .write 0x000 8 v :: rest → decode v = .illegal why → statusFault s.status = 0 →
    ∃ t, step s = .next t ∧ FaultRecorded 1 v { s with pending := rest } t

/-- 60_exceptions.md R201: while a fault is recorded, every word but the two system commands' is dropped. The list
of accesses is the model's own (log 1). -/
def Obligations.FaultedEngineDropsEveryOtherWord : Prop :=
  ∀ (s : State) (v : Word) (rest : List HostAccess),
    s.pending = .write 0x000 8 v :: rest → statusFault s.status = 1 →
    v ≠ 0x0000000001000000 → v ≠ 0x0000000002000000 →
    step s = .next { s with pending := rest }

/-- 30_encoding.md R99, last sentence: after a fault the rest of a sequence of commands is dropped. -/
def Obligations.SequenceAfterFaultIsDropped : Prop :=
  ∀ (cs : List Instr) (s : State),
    statusFault s.status = 1 → (∀ i ∈ cs, isSysCommand i = false) → execAll cs s = .next s

/-- 30_encoding.md R100: every command terminates; the machine has no fault and no refusal for a command. -/
def Obligations.EveryCommandCompletes : Prop :=
  ∀ (i : Instr) (s : State), ∃ t, exec i s = .next t

/-! ### Faults -/

/-- 60_exceptions.md R200 with R192 to R197 and R203: a command records a cause exactly when that cause's condition holds
and no condition earlier in the order does. -/
def Obligations.FirstConditionInOrderIsReported : Prop :=
  ∀ (i : Instr) (c : Cause) (s t : State),
    statusFault s.status = 0 → exec i s = .next t →
    ((statusFault t.status = 1 ∧ statusCause t.status = c.code) ↔
      (faultCondition i c s ∧ ∀ e : Cause, e.priority < c.priority → ¬ faultCondition i e s))

/-- 60_exceptions.md R199, R195, R203: a command that faults changes FAULT, CAUSE and FINFO only, FINFO is its word, and
the cause is one of its causes. -/
def Obligations.FaultingCommandChangesOnlyTheRecord : Prop :=
  ∀ (i : Instr) (s t : State),
    statusFault s.status = 0 → exec i s = .next t → statusFault t.status = 1 →
    ∃ c ∈ faultsOf i, FaultRecorded c.code (encode i) s t

/-- 60_exceptions.md R199: whether a command faults, and the cause, never depend on MB or on any other state but STATUS,
CTRL, the descriptors and the capacity. -/
def Obligations.FaultConditionsIgnoreMbContents : Prop :=
  ∀ (i : Instr) (s s' t t' : State),
    s'.status = s.status → s'.ctrl = s.ctrl → s'.key = s.key → s'.non = s.non → s'.msg = s.msg →
    s'.params.mbCap = s.params.mbCap → exec i s = .next t → exec i s' = .next t' →
    statusFault t'.status = statusFault t.status ∧ statusCause t'.status = statusCause t.status

/-- 60_exceptions.md R193: PA.KEY and PA.AUTH with a key length other than 32, the whole 64-bit register compared, and
no other command or condition raises it. -/
def Obligations.WrongKeyLengthFaults : Prop :=
  ∀ (s : State) (i : Instr), statusFault s.status = 0 →
    ((i = .paKey ∨ i = .paAuth) → s.key.len ≠ 32 →
      ∃ t, exec i s = .next t ∧ FaultRecorded 2 (encode i) s t) ∧
    (∀ t, exec i s = .next t → statusFault t.status = 1 → statusCause t.status = 2 →
      (i = .paKey ∨ i = .paAuth) ∧ s.key.len ≠ 32)

/-- 60_exceptions.md R194: PA.ADDN, and PA.AUTH with a key of length 32, with a nonce length other than 16, and no other
command or condition raises it. -/
def Obligations.WrongNonceLengthFaults : Prop :=
  ∀ (s : State) (i : Instr), statusFault s.status = 0 →
    ((i = .paAddn ∨ (i = .paAuth ∧ s.key.len = 32)) → s.non.len ≠ 16 →
      ∃ t, exec i s = .next t ∧ FaultRecorded 3 (encode i) s t) ∧
    (∀ t, exec i s = .next t → statusFault t.status = 1 → statusCause t.status = 3 →
      (i = .paAddn ∨ (i = .paAuth ∧ s.key.len = 32)) ∧ s.non.len ≠ 16)

/-! ### System commands and resets -/

/-- 42_system.md R181, whole: in every state, faulted or not. Its corner case, a state with no fault recorded, is stated
with the invariant that such a state has cause 0 and FINFO 0 (10_state.md R30, R32). -/
def Obligations.ClrfClearsTheRecordOnly : Prop :=
  encode .sysClrf = 0x0000000001000000 ∧
  ∀ s : State, ∃ t, exec .sysClrf s = .next t ∧
    statusFault t.status = 0 ∧ statusCause t.status = 0 ∧ statusOkind t.status = statusOkind s.status ∧
    slice t.status 3 1 = slice s.status 3 1 ∧ slice t.status 63 10 = slice s.status 63 10 ∧
    t = { s with status := t.status, finfo := 0 } ∧
    (statusFault s.status = 0 → statusCause s.status = 0 → s.finfo = 0 → t = s)

/-- 42_system.md R182, whole: in every state, faulted or not. MB is kept. -/
def Obligations.RstZeroesEveryRegister : Prop :=
  encode .sysRst = 0x0000000002000000 ∧
  ∀ s : State, exec .sysRst s = .next
    { ns := { a := 0, b := 0, c := 0, d := 0 }, limbs := { r0 := 0, r1 := 0, s0 := 0, s1 := 0 }, acc := 0
      out := Vector.replicate 32 0, status := 0, ctrl := 0, finfo := 0
      key := { off := 0, len := 0 }, non := { off := 0, len := 0 }, msg := { off := 0, len := 0 }
      mb := s.mb, params := s.params, mbEpoch := s.mbEpoch, pending := s.pending, reply := s.reply }

/-- 60_exceptions.md R202: the only ways out of the faulted state are SYS.CLRF, SYS.RST and hard reset. The list of
accesses is the model's own (log 1). -/
def Obligations.WaysOutOfTheFaultedState : Prop :=
  ∀ s t : State,
    statusFault s.status = 1 → step s = .next t → statusFault t.status = 0 →
    ∃ rest, s.pending = .write 0x000 8 0x0000000001000000 :: rest ∨
      s.pending = .write 0x000 8 0x0000000002000000 :: rest ∨ s.pending = .hardReset :: rest

/-- 10_state.md R45, whole: every row of its table, after a hard reset and after SYS.RST. A byte of MB after a hard reset
is the free value of its address, of which nothing is known (log 4), and SYS.RST leaves it. That the host's list of
accesses is empty after a hard reset is the model's choice (log 1) and is not stated. -/
def Obligations.ResetLeavesEveryRegisterZero : Prop :=
  (State.reset.ns = { a := 0, b := 0, c := 0, d := 0 } ∧
    State.reset.limbs = { r0 := 0, r1 := 0, s0 := 0, s1 := 0 } ∧
    State.reset.acc = 0 ∧ State.reset.out = Vector.replicate 32 0 ∧
    State.reset.status = 0 ∧ State.reset.ctrl = 0 ∧ State.reset.finfo = 0 ∧
    State.reset.key = { off := 0, len := 0 } ∧ State.reset.non = { off := 0, len := 0 } ∧
    State.reset.msg = { off := 0, len := 0 } ∧
    ∀ a, State.reset.mbByte a = Config.mbFree State.reset.mbEpoch a) ∧
  ∀ s : State, ∃ t, exec .sysRst s = .next t ∧
    t.ns = State.reset.ns ∧ t.limbs = State.reset.limbs ∧ t.acc = State.reset.acc ∧ t.out = State.reset.out ∧
    t.status = State.reset.status ∧ t.ctrl = State.reset.ctrl ∧ t.finfo = State.reset.finfo ∧
    t.key = State.reset.key ∧ t.non = State.reset.non ∧ t.msg = State.reset.msg ∧
    ∀ a, t.mbByte a = s.mbByte a

/-- 70_reset_and_hazards.md R221, R222: the reset input at any time leaves the registers and OUT as after reset, and no
byte the host has written to MB before. What the parameters and the host's own fields hold is kept (log 7). The list
of accesses and the epoch are the model's own (logs 1, 4). -/
def Obligations.HardResetZeroesRegistersAndForgetsMb : Prop :=
  ∀ (s : State) (rest : List HostAccess), s.pending = .hardReset :: rest →
    step s = .next { State.reset with
      params := s.params, mbEpoch := s.mbEpoch + 1, pending := rest, reply := s.reply }

/-! ### NH unit -/

/-- 40_nh_unit.md R111. -/
def Obligations.NhInitLoadsTheConstants : Prop :=
  encode .nhInit = 0x0000000010000000 ∧
  ∀ s : State, statusFault s.status = 0 →
    exec .nhInit s = .next { s with
      ns := { a := s.params.nhC0, b := s.params.nhC1, c := s.params.nhC0, d := s.params.nhC1 } }

/-- 40_nh_unit.md R113, with the round of R112 in its single-assignment form. -/
def Obligations.NhRndAppliesOneRound : Prop :=
  encode .nhRnd = 0x0000000012000000 ∧
  ∀ s : State, statusFault s.status = 0 → exec .nhRnd s = .next { s with ns := roundSpec s.ns }

/-- 40_nh_unit.md section 3: the ten lines of the round are the single-assignment form and "`NHround` is a bijection on
(2^64)^4", both marked there as the spec's own inferences, and the all-zero state is a fixed point. -/
def Obligations.NhRoundIsABijection : Prop :=
  (∀ x, nhRound x = roundSpec x) ∧ Function.Bijective nhRound ∧
  nhRound { a := 0, b := 0, c := 0, d := 0 } = { a := 0, b := 0, c := 0, d := 0 }

/-- 40_nh_unit.md R114: the two faults in their order, and the result. -/
def Obligations.NhXorOutcomes : Prop :=
  ∀ (off : Nat) (s : State), off < 2 ^ 24 → statusFault s.status = 0 →
    encode (.nhXor off) = BitVec.ofNat 64 (0x0000000011000000 + off) ∧
    (outOfRange s s.msg → ∃ t, exec (.nhXor off) s = .next t ∧ FaultRecorded 5 (encode (.nhXor off)) s t) ∧
    (¬ outOfRange s s.msg → s.msg.len.toNat < off + 32 → ctrlZpad s.ctrl = 0 →
      ∃ t, exec (.nhXor off) s = .next t ∧ FaultRecorded 4 (encode (.nhXor off)) s t) ∧
    (¬ outOfRange s s.msg → (off + 32 ≤ s.msg.len.toNat ∨ ctrlZpad s.ctrl = 1) →
      exec (.nhXor off) s = .next { s with ns := xorMessage s off s.ns })

/-- 40_nh_unit.md R115: the two faults in their order, and the result. -/
def Obligations.NhAbsOutcomes : Prop :=
  ∀ (off : Nat) (s : State), off < 2 ^ 24 → statusFault s.status = 0 →
    encode (.nhAbs off) = BitVec.ofNat 64 (0x0000000013000000 + off) ∧
    (outOfRange s s.msg → ∃ t, exec (.nhAbs off) s = .next t ∧ FaultRecorded 5 (encode (.nhAbs off)) s t) ∧
    (¬ outOfRange s s.msg → s.msg.len.toNat < off + 32 → ctrlZpad s.ctrl = 0 →
      ∃ t, exec (.nhAbs off) s = .next t ∧ FaultRecorded 4 (encode (.nhAbs off)) s t) ∧
    (¬ outOfRange s s.msg → (off + 32 ≤ s.msg.len.toNat ∨ ctrlZpad s.ctrl = 1) →
      exec (.nhAbs off) s = .next { s with
        ns := roundSpec (roundSpec (roundSpec (roundSpec (xorMessage s off s.ns)))) })

/-- 40_nh_unit.md R115: NH.ABS "has exactly the effect of `NH.XOR off; NH.RND; NH.RND; NH.RND; NH.RND` when no fault
occurs". -/
def Obligations.NhAbsIsXorAndFourRounds : Prop :=
  ∀ (off : Nat) (s t : State),
    exec (.nhAbs off) s = .next t → statusFault t.status = 0 →
    execAll [.nhXor off, .nhRnd, .nhRnd, .nhRnd, .nhRnd] s = .next t

/-- 40_nh_unit.md R114: "issuing the same NH.XOR twice restores `NS`". -/
def Obligations.NhXorTwiceRestores : Prop :=
  ∀ (off : Nat) (s t : State),
    exec (.nhXor off) s = .next t → statusFault t.status = 0 → execAll [.nhXor off, .nhXor off] s = .next s

/-- 40_nh_unit.md R116. -/
def Obligations.NhOutEmitsTheState : Prop :=
  encode .nhOut = 0x0000000014000000 ∧
  ∀ s : State, statusFault s.status = 0 →
    ∃ t, exec .nhOut s = .next t ∧ t = { s with out := t.out, status := t.status } ∧
      (∀ k : Fin 32, t.out[k] = digestByte s.ns k.val) ∧ OkindBecomes 1 s t ∧
      outSum t 0 8 = s.ns.a ∧ outSum t 8 8 = s.ns.b ∧ outSum t 16 8 = s.ns.c ∧ outSum t 24 8 = s.ns.d

/-- 40_nh_unit.md R117, R118: the two faults in their order, and the result. -/
def Obligations.NhDigestOutcomes : Prop :=
  encode .nhDigest = 0x000000001F000000 ∧
  ∀ s : State, statusFault s.status = 0 →
    (outOfRange s s.msg → ∃ t, exec .nhDigest s = .next t ∧ FaultRecorded 5 (encode .nhDigest) s t) ∧
    (¬ outOfRange s s.msg → s.msg.len.toNat % 32 ≠ 0 → ctrlZpad s.ctrl = 0 →
      ∃ t, exec .nhDigest s = .next t ∧ FaultRecorded 4 (encode .nhDigest) s t) ∧
    (¬ outOfRange s s.msg → (s.msg.len.toNat % 32 = 0 ∨ ctrlZpad s.ctrl = 1) →
      ∃ t, exec .nhDigest s = .next t ∧
        t = { s with ns := digestSpec s, out := t.out, status := t.status } ∧
        (∀ k : Fin 32, t.out[k] = digestByte (digestSpec s) k.val) ∧ OkindBecomes 1 s t)

/-- 40_nh_unit.md R119: when NH.DIGEST does not fault, it equals its primitive sequence. The capacity's bound (00_scope.md
R7) keeps every offset of the sequence encodable. -/
def Obligations.NhDigestEqualsItsPrimitives : Prop :=
  ∀ s t : State, s.params.mbCap ≤ 2 ^ 24 →
    exec .nhDigest s = .next t → statusFault t.status = 0 →
    execAll (digestSequence s.msg.len.toNat) s = .next t ∧
    ∀ i ∈ digestSequence s.msg.len.toNat, i.wellFormed = true

/-- 40_nh_unit.md R121: the digest is a function of the constants, ZPAD and the message bytes alone. -/
def Obligations.DigestDependsOnTheMessageAlone : Prop :=
  ∀ s s' t t' : State,
    exec .nhDigest s = .next t → statusFault t.status = 0 →
    exec .nhDigest s' = .next t' → statusFault t'.status = 0 →
    s'.params.nhC0 = s.params.nhC0 → s'.params.nhC1 = s.params.nhC1 →
    ctrlZpad s'.ctrl = ctrlZpad s.ctrl → s'.msg.len = s.msg.len →
    (∀ k, k < s.msg.len.toNat → s'.mbByte (s'.msg.off.toNat + k) = s.mbByte (s.msg.off.toNat + k)) →
    t'.out = t.out

/-- 40_nh_unit.md R121: with ZPAD = 1, zero bytes after the message inside the tail window do not change the digest. -/
def Obligations.ZeroBytesInTheTailWindowDoNotCount : Prop :=
  ∀ s s' t t' : State,
    exec .nhDigest s = .next t → statusFault t.status = 0 →
    exec .nhDigest s' = .next t' → statusFault t'.status = 0 →
    s'.params.nhC0 = s.params.nhC0 → s'.params.nhC1 = s.params.nhC1 →
    s.msg.len.toNat ≤ s'.msg.len.toNat → s'.msg.len.toNat / 32 = s.msg.len.toNat / 32 →
    (∀ k, k < s.msg.len.toNat → s'.mbByte (s'.msg.off.toNat + k) = s.mbByte (s.msg.off.toNat + k)) →
    (∀ k, s.msg.len.toNat ≤ k → k < s'.msg.len.toNat → s'.mbByte (s'.msg.off.toNat + k) = 0) →
    t'.out = t.out

/-! ### PA unit -/

/-- 41_pa_unit.md R142 with the clamp of R141: the two faults in their order, and the result. -/
def Obligations.PaKeyOutcomes : Prop :=
  encode .paKey = 0x0000000020000000 ∧
  ∀ s : State, statusFault s.status = 0 →
    (s.key.len ≠ 32 → ∃ t, exec .paKey s = .next t ∧ FaultRecorded 2 (encode .paKey) s t) ∧
    (s.key.len = 32 → outOfRange s s.key → ∃ t, exec .paKey s = .next t ∧ FaultRecorded 5 (encode .paKey) s t) ∧
    (s.key.len = 32 → ¬ outOfRange s s.key → exec .paKey s = .next { s with limbs := limbsSpec s })

/-- 41_pa_unit.md R143. -/
def Obligations.PaClrClearsTheAccumulator : Prop :=
  encode .paClr = 0x0000000021000000 ∧
  ∀ s : State, statusFault s.status = 0 → exec .paClr s = .next { s with acc := 0 }

/-- 41_pa_unit.md R144: the two faults in their order, and the result. -/
def Obligations.PaAddnOutcomes : Prop :=
  encode .paAddn = 0x0000000022000000 ∧
  ∀ s : State, statusFault s.status = 0 →
    (s.non.len ≠ 16 → ∃ t, exec .paAddn s = .next t ∧ FaultRecorded 3 (encode .paAddn) s t) ∧
    (s.non.len = 16 → outOfRange s s.non → ∃ t, exec .paAddn s = .next t ∧ FaultRecorded 5 (encode .paAddn) s t) ∧
    (s.non.len = 16 → ¬ outOfRange s s.non →
      exec .paAddn s = .next { s with acc := BitVec.ofNat 132 ((s.acc.toNat + bufStride s s.non 0) % 2 ^ 132) })

/-- 41_pa_unit.md R145: the two faults in their order, and the result. -/
def Obligations.PaAddmOutcomes : Prop :=
  ∀ (off : Nat) (s : State), off < 2 ^ 24 → statusFault s.status = 0 →
    encode (.paAddm off) = BitVec.ofNat 64 (0x0000000023000000 + off) ∧
    (outOfRange s s.msg → ∃ t, exec (.paAddm off) s = .next t ∧ FaultRecorded 5 (encode (.paAddm off)) s t) ∧
    (¬ outOfRange s s.msg → s.msg.len.toNat < off + 16 → ctrlZpad s.ctrl = 0 →
      ∃ t, exec (.paAddm off) s = .next t ∧ FaultRecorded 4 (encode (.paAddm off)) s t) ∧
    (¬ outOfRange s s.msg → (off + 16 ≤ s.msg.len.toNat ∨ ctrlZpad s.ctrl = 1) →
      exec (.paAddm off) s = .next { s with
        acc := BitVec.ofNat 132 ((s.acc.toNat + bufStride s s.msg off) % 2 ^ 132) })

/-- 41_pa_unit.md R144: "the order of PA.ADDN and PA.ADDM commands does not change `ACC`". -/
def Obligations.AddsCommute : Prop :=
  ∀ (off : Nat) (s t : State),
    execAll [.paAddn, .paAddm off] s = .next t → statusFault t.status = 0 →
    execAll [.paAddm off, .paAddn] s = .next t

/-- 41_pa_unit.md R148. -/
def Obligations.PaMulrMultipliesByR : Prop :=
  encode .paMulr = 0x0000000024000000 ∧
  ∀ s : State, statusFault s.status = 0 →
    exec .paMulr s = .next { s with
      acc := BitVec.ofNat 132 (mulredSpec s.acc.toNat s.limbs.r1.toNat s.limbs.r0.toNat) }

/-- 41_pa_unit.md R149. -/
def Obligations.PaMulsMultipliesByS : Prop :=
  encode .paMuls = 0x0000000025000000 ∧
  ∀ s : State, statusFault s.status = 0 →
    exec .paMuls s = .next { s with
      acc := BitVec.ofNat 132 (mulredSpec s.acc.toNat s.limbs.s1.toNat s.limbs.s0.toNat) }

/-- 41_pa_unit.md R151 with R150. -/
def Obligations.PaTagEmitsTheTag : Prop :=
  encode .paTag = 0x0000000026000000 ∧
  ∀ s : State, statusFault s.status = 0 →
    ∃ t, exec .paTag s = .next t ∧ t = { s with out := t.out, status := t.status } ∧
      (∀ k : Fin 32, t.out[k] = tagByte s.acc.toNat k.val) ∧ OkindBecomes 2 s t ∧
      outSum t 0 8 = BitVec.ofNat 64 s.acc.toNat ∧ outSum t 8 8 = BitVec.ofNat 64 (s.acc.toNat / 2 ^ 64) ∧
      outSum t 16 8 = 0 ∧ outSum t 24 8 = 0

/-- 41_pa_unit.md R152, R153: the four faults in their order, and the result. -/
def Obligations.PaAuthOutcomes : Prop :=
  encode .paAuth = 0x000000002F000000 ∧
  ∀ s : State, statusFault s.status = 0 →
    (s.key.len ≠ 32 → ∃ t, exec .paAuth s = .next t ∧ FaultRecorded 2 (encode .paAuth) s t) ∧
    (s.key.len = 32 → s.non.len ≠ 16 → ∃ t, exec .paAuth s = .next t ∧ FaultRecorded 3 (encode .paAuth) s t) ∧
    (s.key.len = 32 → s.non.len = 16 → (outOfRange s s.key ∨ outOfRange s s.non ∨ outOfRange s s.msg) →
      ∃ t, exec .paAuth s = .next t ∧ FaultRecorded 5 (encode .paAuth) s t) ∧
    (s.key.len = 32 → s.non.len = 16 → ¬ outOfRange s s.key → ¬ outOfRange s s.non → ¬ outOfRange s s.msg →
      s.msg.len.toNat % 16 ≠ 0 → ctrlZpad s.ctrl = 0 →
      ∃ t, exec .paAuth s = .next t ∧ FaultRecorded 4 (encode .paAuth) s t) ∧
    (s.key.len = 32 → s.non.len = 16 → ¬ outOfRange s s.key → ¬ outOfRange s s.non → ¬ outOfRange s s.msg →
      (s.msg.len.toNat % 16 = 0 ∨ ctrlZpad s.ctrl = 1) →
      ∃ t, exec .paAuth s = .next t ∧
        t = { s with
          limbs := limbsSpec s, acc := BitVec.ofNat 132 (authSpec s), out := t.out, status := t.status } ∧
        (∀ k : Fin 32, t.out[k] = tagByte (authSpec s) k.val) ∧ OkindBecomes 2 s t)

/-- 41_pa_unit.md R152: when PA.AUTH does not fault, it equals its primitive sequence. The capacity's bound (00_scope.md
R7) keeps every offset of the sequence encodable. -/
def Obligations.PaAuthEqualsItsPrimitives : Prop :=
  ∀ s t : State, s.params.mbCap ≤ 2 ^ 24 →
    exec .paAuth s = .next t → statusFault t.status = 0 →
    execAll (authSequence s.msg.len.toNat) s = .next t ∧
    ∀ i ∈ authSequence s.msg.len.toNat, i.wellFormed = true

/-- 41_pa_unit.md R154 (b): the tag is what the same computation modulo 2^128 gives. -/
def Obligations.TagIsComputableModuloTwoToThe128 : Prop :=
  ∀ s t : State,
    statusFault s.status = 0 → exec .paAuth s = .next t → statusFault t.status = 0 →
    ∀ k : Fin 32, t.out[k] = tagByte (authSpecModuloTag s) k.val

/-- 41_pa_unit.md R154 (a): an unbounded accumulator gives the same value after a multiply-reduce stage. -/
def Obligations.AccumulatorMayBeKeptReduced : Prop :=
  ∀ x h l : Nat, mulred (x % 2 ^ 132) h l = (x + h <<< 32) % 2 ^ 132 * l % 2 ^ 132

/-- 41_pa_unit.md R155: for equal key bytes the tag is a function of the sum of the strides only. -/
def Obligations.TagDependsOnTheStrideSumOnly : Prop :=
  ∀ s s' t t' : State,
    statusFault s.status = 0 → exec .paAuth s = .next t → statusFault t.status = 0 →
    statusFault s'.status = 0 → exec .paAuth s' = .next t' → statusFault t'.status = 0 →
    (∀ k, k < 32 → s'.mbByte (s'.key.off.toNat + k) = s.mbByte (s.key.off.toNat + k)) →
    strideSum s' ((s'.msg.len.toNat + 15) / 16) = strideSum s ((s.msg.len.toNat + 15) / 16) →
    t'.out = t.out

/-! ### Invariants -/

/-- The invariant of legal states holds after reset. -/
def Obligations.ResetStateIsLegal : Prop := State.Inv State.reset

/-- 10_state.md R26, R30, R31, R32, R36, 60_exceptions.md R191, R203: every step keeps the invariant of legal states. -/
def Obligations.StepKeepsLegalStates : Prop :=
  ∀ s t : State, State.Inv s → step s = .next t → State.Inv t

/-- 10_state.md R39: nothing the host or a command does changes the constants or the capacity (log 3). -/
def Obligations.StepKeepsTheParameters : Prop :=
  ∀ s t : State, step s = .next t → t.params = s.params

/-! ### Frames -/

/-- 10_state.md R31, R34, R36: no command writes MB, and none but SYS.RST writes CTRL or a descriptor. -/
def Obligations.CommandsLeaveMbCtrlAndDescriptors : Prop :=
  ∀ (i : Instr) (s t : State), exec i s = .next t →
    sameMb s t ∧ t.mb = s.mb ∧
    (i ≠ .sysRst → t.ctrl = s.ctrl ∧ t.key = s.key ∧ t.non = s.non ∧ t.msg = s.msg)

/-- 10_state.md R22, R25, R27, R29: the commands that may change NS, the limbs, ACC and OUT. -/
def Obligations.WritersOfEachWorkingRegister : Prop :=
  ∀ (i : Instr) (s t : State), exec i s = .next t →
    (t.ns ≠ s.ns → i = .sysRst ∨ i = .nhInit ∨ i = .nhRnd ∨ i = .nhDigest ∨
      (∃ off, i = .nhXor off) ∨ ∃ off, i = .nhAbs off) ∧
    (t.limbs ≠ s.limbs → i = .sysRst ∨ i = .paKey ∨ i = .paAuth) ∧
    (t.acc ≠ s.acc → i = .sysRst ∨ i = .paClr ∨ i = .paAddn ∨ i = .paMulr ∨ i = .paMuls ∨ i = .paAuth ∨
      ∃ off, i = .paAddm off) ∧
    (t.out ≠ s.out → i = .sysRst ∨ i = .nhOut ∨ i = .nhDigest ∨ i = .paTag ∨ i = .paAuth)

/-- 10_state.md R37: an NH command neither reads nor writes the limbs and ACC, a PA command neither reads nor writes
NS. -/
def Obligations.UnitsShareNoWorkingState : Prop :=
  (∀ (i : Instr) (s t : State) (l : Limbs) (x : Acc),
    isNhCommand i = true → exec i s = .next t →
    exec i { s with limbs := l, acc := x } = .next { t with limbs := l, acc := x }) ∧
  (∀ (i : Instr) (s t : State) (n : NhState),
    isPaCommand i = true → exec i s = .next t → exec i { s with ns := n } = .next { t with ns := n })

/-! ### The host's accesses -/

/-- 10_state.md R28, R29, R33, R40: what a 64-bit read of each register returns. Where the value goes is the model's
choice (log 2). The list of accesses is the model's own (log 1). -/
def Obligations.RegisterReadsReturnTheRegister : Prop :=
  ∀ (s : State) (rest : List HostAccess) (offset : Nat) (v : Word),
    s.pending = .read offset 8 :: rest →
    (offset, v) ∈
      [(0x000, 0), (0x008, s.status), (0x010, s.ctrl), (0x018, s.finfo),
       (0x020, s.key.off), (0x028, s.key.len), (0x030, s.non.off), (0x038, s.non.len),
       (0x040, s.msg.off), (0x048, s.msg.len),
       (0x080, s.ns.a), (0x088, s.ns.b), (0x090, s.ns.c), (0x098, s.ns.d),
       (0x0A0, s.limbs.r0), (0x0A8, s.limbs.r1), (0x0B0, s.limbs.s0), (0x0B8, s.limbs.s1),
       (0x0C0, BitVec.ofNat 64 s.acc.toNat), (0x0C8, BitVec.ofNat 64 (s.acc.toNat / 2 ^ 64)),
       (0x0D0, BitVec.ofNat 64 (s.acc.toNat / 2 ^ 128)),
       (0x100, outSum s 0 8), (0x108, outSum s 8 8), (0x110, outSum s 16 8), (0x118, outSum s 24 8)] →
    step s = .next { s with pending := rest, reply := some v }

/-- 10_state.md R43: what a 64-bit write of each register but CMD does; a write to a read-only register is ignored.
The list of accesses is the model's own (log 1). -/
def Obligations.RegisterWritesFollowTheAccessRights : Prop :=
  ∀ (s t : State) (rest : List HostAccess) (offset : Nat) (v : Word),
    s.pending = .write offset 8 v :: rest →
    (offset, t) ∈
      [(0x010, { s with pending := rest, ctrl := BitVec.ofNat 64 (v.toNat % 2) }),
       (0x020, { s with pending := rest, key := { off := v, len := s.key.len } }),
       (0x028, { s with pending := rest, key := { off := s.key.off, len := v } }),
       (0x030, { s with pending := rest, non := { off := v, len := s.non.len } }),
       (0x038, { s with pending := rest, non := { off := s.non.off, len := v } }),
       (0x040, { s with pending := rest, msg := { off := v, len := s.msg.len } }),
       (0x048, { s with pending := rest, msg := { off := s.msg.off, len := v } }),
       (0x080, { s with pending := rest, ns := { a := v, b := s.ns.b, c := s.ns.c, d := s.ns.d } }),
       (0x088, { s with pending := rest, ns := { a := s.ns.a, b := v, c := s.ns.c, d := s.ns.d } }),
       (0x090, { s with pending := rest, ns := { a := s.ns.a, b := s.ns.b, c := v, d := s.ns.d } }),
       (0x098, { s with pending := rest, ns := { a := s.ns.a, b := s.ns.b, c := s.ns.c, d := v } })] ++
      [0x008, 0x018, 0x0A0, 0x0A8, 0x0B0, 0x0B8, 0x0C0, 0x0C8, 0x0D0, 0x100, 0x108, 0x110, 0x118].map
        (fun o => (o, { s with pending := rest })) →
    step s = .next t

/-- 10_state.md R43: "A host read never changes state". The reply and the list of accesses are the model's own. -/
def Obligations.HostReadChangesNothing : Prop :=
  ∀ (s t : State) (rest : List HostAccess) (offset width : Nat),
    s.pending = .read offset width :: rest → step s = .next t →
    ∃ v, t = { s with pending := rest, reply := some v }

/-- 10_state.md R42, 20_memory.md R61: a store through the window writes its bytes, the lowest address getting the least
significant, and no other byte of MB and no register. The list of accesses is the model's own (log 1). -/
def Obligations.WindowWriteStoresItsBytesOnly : Prop :=
  ∀ (s : State) (rest : List HostAccess) (a width : Nat) (v : Word),
    s.pending = .write (0x01000000 + a) width v :: rest → width ∈ [1, 2, 4, 8] → a + width ≤ s.params.mbCap →
    ∃ t, step s = .next t ∧ t = { s with pending := rest, mb := t.mb } ∧
      (∀ k, k < width → t.mbByte (a + k) = BitVec.ofNat 8 (v.toNat / 2 ^ (8 * k))) ∧
      ∀ b, b < a ∨ a + width ≤ b → t.mbByte b = s.mbByte b

/-- 10_state.md R42: a read through the window returns its bytes, the lowest offset in the least significant lane.
The list of accesses and the field `reply` are the model's own (logs 1, 2). -/
def Obligations.WindowReadReturnsItsBytes : Prop :=
  ∀ (s : State) (rest : List HostAccess) (a width : Nat),
    s.pending = .read (0x01000000 + a) width :: rest → width ∈ [1, 2, 4, 8] → a + width ≤ s.params.mbCap →
    step s = .next { s with pending := rest, reply := some (mbSum s a width) }

/-- 20_memory.md R63: a host that wrote a 64-bit value at an address and a command that reads 8 bytes there obtain the
same value. The list of accesses is the model's own (log 1). -/
def Obligations.CommandReadsTheWordTheHostWrote : Prop :=
  ∀ (s t : State) (rest : List HostAccess) (a k : Nat) (v : Word) (d : Descriptor),
    s.pending = .write (0x01000000 + a) 8 v :: rest → step s = .next t →
    d.off.toNat + k = a → k + 8 ≤ d.len.toNat → le64 (t.bufRead d k 8) = v

/-- 10_state.md R42: OUT is readable with 1, 2, 4 or 8 bytes at any offset in 0x100 to 0x11F that does not cross
0x120. The list of accesses and the field `reply` are the model's own (logs 1, 2). -/
def Obligations.OutIsReadableAtEveryWidth : Prop :=
  ∀ (s : State) (rest : List HostAccess) (k width : Nat),
    s.pending = .read (0x100 + k) width :: rest → width ∈ [1, 2, 4, 8] → k + width ≤ 32 →
    step s = .next { s with pending := rest, reply := some (outSum s k width) }

/-- 10_state.md R40, R41, R44: accesses of a supported form to unmapped offsets are refused. The list of accesses
and the reason's name are the model's own (logs 1, 9). -/
def Obligations.UnmappedOffsetsAreRefused : Prop :=
  ∀ (s : State) (x : HostAccess) (rest : List HostAccess) (offset width : Nat),
    s.pending = x :: rest → (x = .read offset width ∨ ∃ v, x = .write offset width v) →
    ((offset < 0x1000 ∧ width = 8 ∧ offset % 8 = 0 ∧
        offset ∉ [0x000, 0x008, 0x010, 0x018, 0x020, 0x028, 0x030, 0x038, 0x040, 0x048, 0x080, 0x088, 0x090,
          0x098, 0x0A0, 0x0A8, 0x0B0, 0x0B8, 0x0C0, 0x0C8, 0x0D0, 0x100, 0x108, 0x110, 0x118]) ∨
      (0x1000 ≤ offset ∧ offset < 0x01000000) ∨
      (0x01000000 ≤ offset ∧ width ∈ [1, 2, 4, 8] ∧ 0x01000000 + s.params.mbCap < offset + width)) →
    step s = .refused (.unmappedOffset offset)

/-- 10_state.md R42: accesses of any other width or alignment are refused. The list of accesses and the reason's
name are the model's own (logs 1, 9). -/
def Obligations.UnsupportedAccessesAreRefused : Prop :=
  ∀ (s : State) (x : HostAccess) (rest : List HostAccess) (offset width : Nat),
    s.pending = x :: rest →
    ((x = .read offset width ∧ offset < 0x1000 ∧ (width ≠ 8 ∨ offset % 8 ≠ 0) ∧
        (width ∉ [1, 2, 4, 8] ∨ offset < 0x100 ∨ 0x120 < offset + width)) ∨
      ((∃ v, x = .write offset width v) ∧ offset < 0x1000 ∧ (width ≠ 8 ∨ offset % 8 ≠ 0)) ∨
      ((x = .read offset width ∨ ∃ v, x = .write offset width v) ∧ 0x01000000 ≤ offset ∧ width ∉ [1, 2, 4, 8])) →
    step s = .refused (.unsupportedAccess offset width)
end

