-- ==== Sys2Proof/Laws/Flags.lean ====
section
/-! SUPPORT. The fields of STATUS after each of its updates, and the two Boolean reads as equations. -/

namespace Sys2Proof.Machine

theorem slice_lt (v : Word) (hi lo : Nat) : slice v hi lo < 2 ^ (hi - lo + 1) := Nat.mod_lt _ (by positivity)

theorem putField_toNat (v : Word) {lo n x : Nat} (h : lo + n ≤ 64) :
    (putField v lo n x).toNat =
      v.toNat / 2 ^ (lo + n) * 2 ^ (lo + n) + x % 2 ^ n * 2 ^ lo + v.toNat % 2 ^ lo := by
  have hv : v.toNat < 2 ^ 64 := v.isLt
  have hx : x % 2 ^ n < 2 ^ n := Nat.mod_lt _ (by positivity)
  have hl : v.toNat % 2 ^ lo < 2 ^ lo := Nat.mod_lt _ (by positivity)
  have e : 2 ^ (lo + n) = 2 ^ n * 2 ^ lo := by rw [pow_add, mul_comm]
  have low : x % 2 ^ n * 2 ^ lo + v.toNat % 2 ^ lo < 2 ^ (lo + n) := by
    rw [e]
    calc x % 2 ^ n * 2 ^ lo + v.toNat % 2 ^ lo < x % 2 ^ n * 2 ^ lo + 2 ^ lo := by omega
      _ = (x % 2 ^ n + 1) * 2 ^ lo := by ring
      _ ≤ 2 ^ n * 2 ^ lo := Nat.mul_le_mul_right _ hx
  have q : v.toNat / 2 ^ (lo + n) + 1 ≤ 2 ^ (64 - (lo + n)) := by
    have : v.toNat / 2 ^ (lo + n) < 2 ^ (64 - (lo + n)) := by
      rw [Nat.div_lt_iff_lt_mul (by positivity), ← pow_add]
      rwa [show 64 - (lo + n) + (lo + n) = 64 by omega]
    exact this
  have top : (v.toNat / 2 ^ (lo + n) + 1) * 2 ^ (lo + n) ≤ 2 ^ 64 := by
    calc _ ≤ 2 ^ (64 - (lo + n)) * 2 ^ (lo + n) := Nat.mul_le_mul_right _ q
      _ = 2 ^ 64 := by rw [← pow_add, show 64 - (lo + n) + (lo + n) = 64 by omega]
  rw [putField, BitVec.toNat_ofNat, Nat.shiftLeft_eq, Nat.shiftLeft_eq, Nat.mod_eq_of_lt]
  rw [add_mul, one_mul] at top
  omega

theorem putFault_toNat (v : Word) (f c : Nat) :
    (putFault v f c).toNat = v.toNat / 256 * 256 + c % 16 * 16 + v.toNat / 2 % 8 * 2 + f % 2 := by
  rw [putFault, putField_toNat _ (by omega), putField_toNat _ (by omega)]
  norm_num
  omega

theorem putOkind_toNat (v : Word) (k : Nat) :
    (putOkind v k).toNat = v.toNat / 1024 * 1024 + k % 4 * 256 + v.toNat % 256 := by
  rw [putOkind, putField_toNat _ (by omega)]
  norm_num

@[simp] theorem statusFault_putFault (v : Word) (f c : Nat) : statusFault (putFault v f c) = f % 2 := by
  simp only [statusFault, slice, putFault_toNat]
  omega

@[simp] theorem statusCause_putFault (v : Word) (f c : Nat) : statusCause (putFault v f c) = c % 16 := by
  simp only [statusCause, slice, putFault_toNat]
  omega

@[simp] theorem statusOkind_putFault (v : Word) (f c : Nat) : statusOkind (putFault v f c) = statusOkind v := by
  simp only [statusOkind, slice, putFault_toNat]
  omega

@[simp] theorem reservedLow_putFault (v : Word) (f c : Nat) : slice (putFault v f c) 3 1 = slice v 3 1 := by
  simp only [slice, putFault_toNat]
  omega

@[simp] theorem reservedHigh_putFault (v : Word) (f c : Nat) : slice (putFault v f c) 63 10 = slice v 63 10 := by
  simp only [slice, putFault_toNat]
  omega

@[simp] theorem statusFault_putOkind (v : Word) (k : Nat) : statusFault (putOkind v k) = statusFault v := by
  simp only [statusFault, slice, putOkind_toNat]
  omega

@[simp] theorem statusCause_putOkind (v : Word) (k : Nat) : statusCause (putOkind v k) = statusCause v := by
  simp only [statusCause, slice, putOkind_toNat]
  omega

@[simp] theorem statusOkind_putOkind (v : Word) (k : Nat) : statusOkind (putOkind v k) = k % 4 := by
  simp only [statusOkind, slice, putOkind_toNat]
  omega

@[simp] theorem reservedLow_putOkind (v : Word) (k : Nat) : slice (putOkind v k) 3 1 = slice v 3 1 := by
  simp only [slice, putOkind_toNat]
  omega

@[simp] theorem reservedHigh_putOkind (v : Word) (k : Nat) : slice (putOkind v k) 63 10 = slice v 63 10 := by
  simp only [slice, putOkind_toNat]
  omega

theorem statusFault_le_one (v : Word) : statusFault v ≤ 1 := by
  have := slice_lt v 0 0
  simp only [statusFault]
  omega

theorem ctrlZpad_le_one (v : Word) : ctrlZpad v ≤ 1 := by
  have := slice_lt v 0 0
  simp only [ctrlZpad]
  omega

theorem faulted_eq_false_iff (s : State) : s.faulted = false ↔ statusFault s.status = 0 := by
  have := statusFault_le_one s.status
  simp only [State.faulted, decide_eq_false_iff_not]
  omega

theorem faulted_eq_true_iff (s : State) : s.faulted = true ↔ statusFault s.status = 1 := by
  simp [State.faulted]

theorem zpad_eq_false_iff (s : State) : s.zpad = false ↔ ctrlZpad s.ctrl = 0 := by
  have := ctrlZpad_le_one s.ctrl
  simp only [State.zpad, decide_eq_false_iff_not]
  omega

theorem zpad_eq_true_iff (s : State) : s.zpad = true ↔ ctrlZpad s.ctrl = 1 := by
  simp [State.zpad]

/-- What CTRL holds after a host write: bit 0 of the value, nothing in the reserved bits (10_state.md R31). -/
@[simp] theorem ctrlStored_toNat (v : Word) : (ctrlStored v).toNat = v.toNat % 2 := by
  simp only [ctrlStored, slice, BitVec.toNat_ofNat]
  omega

end Sys2Proof.Machine
end

