-- ==== Sys2Proof/Laws/State.lean ====
section
/-! SUPPORT. One lemma per field per named update of State, each true by rfl, so that no later proof unfolds an update. -/

namespace Sys2Proof.Machine

/-- OUT after NH.OUT and NH.DIGEST, in terms of OUT and NS before. -/
def digestOut (s : State) : Vector Byte 32 :=
  memWrite 24 (bytesLE64 s.ns.d) (memWrite 16 (bytesLE64 s.ns.c)
    (memWrite 8 (bytesLE64 s.ns.b) (memWrite 0 (bytesLE64 s.ns.a) s.out)))

/-- OUT after PA.TAG and PA.AUTH, in terms of OUT and ACC before. -/
def tagOut (s : State) : Vector Byte 32 :=
  memWrite 16 (List.replicate 16 0)
    (memWrite 8 (bytesLE64 (s.acc.extractLsb' 64 64)) (memWrite 0 (bytesLE64 (s.acc.extractLsb' 0 64)) s.out))

@[simp] theorem raise_ns (w : Word) (c : Cause) (s : State) : (raise w c s).ns = s.ns := rfl
@[simp] theorem raise_limbs (w : Word) (c : Cause) (s : State) : (raise w c s).limbs = s.limbs := rfl
@[simp] theorem raise_acc (w : Word) (c : Cause) (s : State) : (raise w c s).acc = s.acc := rfl
@[simp] theorem raise_out (w : Word) (c : Cause) (s : State) : (raise w c s).out = s.out := rfl
@[simp] theorem raise_status (w : Word) (c : Cause) (s : State) : (raise w c s).status = putFault s.status 1 c.code := rfl
@[simp] theorem raise_ctrl (w : Word) (c : Cause) (s : State) : (raise w c s).ctrl = s.ctrl := rfl
@[simp] theorem raise_finfo (w : Word) (c : Cause) (s : State) : (raise w c s).finfo = w := rfl
@[simp] theorem raise_key (w : Word) (c : Cause) (s : State) : (raise w c s).key = s.key := rfl
@[simp] theorem raise_non (w : Word) (c : Cause) (s : State) : (raise w c s).non = s.non := rfl
@[simp] theorem raise_msg (w : Word) (c : Cause) (s : State) : (raise w c s).msg = s.msg := rfl
@[simp] theorem raise_mb (w : Word) (c : Cause) (s : State) : (raise w c s).mb = s.mb := rfl
@[simp] theorem raise_params (w : Word) (c : Cause) (s : State) : (raise w c s).params = s.params := rfl
@[simp] theorem raise_mbEpoch (w : Word) (c : Cause) (s : State) : (raise w c s).mbEpoch = s.mbEpoch := rfl
@[simp] theorem raise_pending (w : Word) (c : Cause) (s : State) : (raise w c s).pending = s.pending := rfl
@[simp] theorem raise_reply (w : Word) (c : Cause) (s : State) : (raise w c s).reply = s.reply := rfl

@[simp] theorem clearFault_ns (s : State) : (clearFault s).ns = s.ns := rfl
@[simp] theorem clearFault_limbs (s : State) : (clearFault s).limbs = s.limbs := rfl
@[simp] theorem clearFault_acc (s : State) : (clearFault s).acc = s.acc := rfl
@[simp] theorem clearFault_out (s : State) : (clearFault s).out = s.out := rfl
@[simp] theorem clearFault_status (s : State) : (clearFault s).status = putFault s.status 0 0 := rfl
@[simp] theorem clearFault_ctrl (s : State) : (clearFault s).ctrl = s.ctrl := rfl
@[simp] theorem clearFault_finfo (s : State) : (clearFault s).finfo = 0 := rfl
@[simp] theorem clearFault_key (s : State) : (clearFault s).key = s.key := rfl
@[simp] theorem clearFault_non (s : State) : (clearFault s).non = s.non := rfl
@[simp] theorem clearFault_msg (s : State) : (clearFault s).msg = s.msg := rfl
@[simp] theorem clearFault_mb (s : State) : (clearFault s).mb = s.mb := rfl
@[simp] theorem clearFault_params (s : State) : (clearFault s).params = s.params := rfl
@[simp] theorem clearFault_mbEpoch (s : State) : (clearFault s).mbEpoch = s.mbEpoch := rfl
@[simp] theorem clearFault_pending (s : State) : (clearFault s).pending = s.pending := rfl
@[simp] theorem clearFault_reply (s : State) : (clearFault s).reply = s.reply := rfl

@[simp] theorem softReset_ns (s : State) : (softReset s).ns = ⟨0, 0, 0, 0⟩ := rfl
@[simp] theorem softReset_limbs (s : State) : (softReset s).limbs = ⟨0, 0, 0, 0⟩ := rfl
@[simp] theorem softReset_acc (s : State) : (softReset s).acc = 0 := rfl
@[simp] theorem softReset_out (s : State) : (softReset s).out = Vector.replicate 32 0 := rfl
@[simp] theorem softReset_status (s : State) : (softReset s).status = 0 := rfl
@[simp] theorem softReset_ctrl (s : State) : (softReset s).ctrl = 0 := rfl
@[simp] theorem softReset_finfo (s : State) : (softReset s).finfo = 0 := rfl
@[simp] theorem softReset_key (s : State) : (softReset s).key = ⟨0, 0⟩ := rfl
@[simp] theorem softReset_non (s : State) : (softReset s).non = ⟨0, 0⟩ := rfl
@[simp] theorem softReset_msg (s : State) : (softReset s).msg = ⟨0, 0⟩ := rfl
@[simp] theorem softReset_mb (s : State) : (softReset s).mb = s.mb := rfl
@[simp] theorem softReset_params (s : State) : (softReset s).params = s.params := rfl
@[simp] theorem softReset_mbEpoch (s : State) : (softReset s).mbEpoch = s.mbEpoch := rfl
@[simp] theorem softReset_pending (s : State) : (softReset s).pending = s.pending := rfl
@[simp] theorem softReset_reply (s : State) : (softReset s).reply = s.reply := rfl

@[simp] theorem hardReset_ns (s : State) : (hardReset s).ns = ⟨0, 0, 0, 0⟩ := rfl
@[simp] theorem hardReset_limbs (s : State) : (hardReset s).limbs = ⟨0, 0, 0, 0⟩ := rfl
@[simp] theorem hardReset_acc (s : State) : (hardReset s).acc = 0 := rfl
@[simp] theorem hardReset_out (s : State) : (hardReset s).out = Vector.replicate 32 0 := rfl
@[simp] theorem hardReset_status (s : State) : (hardReset s).status = 0 := rfl
@[simp] theorem hardReset_ctrl (s : State) : (hardReset s).ctrl = 0 := rfl
@[simp] theorem hardReset_finfo (s : State) : (hardReset s).finfo = 0 := rfl
@[simp] theorem hardReset_key (s : State) : (hardReset s).key = ⟨0, 0⟩ := rfl
@[simp] theorem hardReset_non (s : State) : (hardReset s).non = ⟨0, 0⟩ := rfl
@[simp] theorem hardReset_msg (s : State) : (hardReset s).msg = ⟨0, 0⟩ := rfl
@[simp] theorem hardReset_mb (s : State) : (hardReset s).mb = [] := rfl
@[simp] theorem hardReset_params (s : State) : (hardReset s).params = s.params := rfl
@[simp] theorem hardReset_mbEpoch (s : State) : (hardReset s).mbEpoch = s.mbEpoch + 1 := rfl
@[simp] theorem hardReset_pending (s : State) : (hardReset s).pending = s.pending := rfl
@[simp] theorem hardReset_reply (s : State) : (hardReset s).reply = s.reply := rfl

@[simp] theorem emitDigest_ns (s : State) : (emitDigest s).ns = s.ns := rfl
@[simp] theorem emitDigest_limbs (s : State) : (emitDigest s).limbs = s.limbs := rfl
@[simp] theorem emitDigest_acc (s : State) : (emitDigest s).acc = s.acc := rfl
@[simp] theorem emitDigest_out (s : State) : (emitDigest s).out = digestOut s := rfl
@[simp] theorem emitDigest_status (s : State) : (emitDigest s).status = putOkind s.status okindDigest := rfl
@[simp] theorem emitDigest_ctrl (s : State) : (emitDigest s).ctrl = s.ctrl := rfl
@[simp] theorem emitDigest_finfo (s : State) : (emitDigest s).finfo = s.finfo := rfl
@[simp] theorem emitDigest_key (s : State) : (emitDigest s).key = s.key := rfl
@[simp] theorem emitDigest_non (s : State) : (emitDigest s).non = s.non := rfl
@[simp] theorem emitDigest_msg (s : State) : (emitDigest s).msg = s.msg := rfl
@[simp] theorem emitDigest_mb (s : State) : (emitDigest s).mb = s.mb := rfl
@[simp] theorem emitDigest_params (s : State) : (emitDigest s).params = s.params := rfl
@[simp] theorem emitDigest_mbEpoch (s : State) : (emitDigest s).mbEpoch = s.mbEpoch := rfl
@[simp] theorem emitDigest_pending (s : State) : (emitDigest s).pending = s.pending := rfl
@[simp] theorem emitDigest_reply (s : State) : (emitDigest s).reply = s.reply := rfl

@[simp] theorem emitTag_ns (s : State) : (emitTag s).ns = s.ns := rfl
@[simp] theorem emitTag_limbs (s : State) : (emitTag s).limbs = s.limbs := rfl
@[simp] theorem emitTag_acc (s : State) : (emitTag s).acc = s.acc := rfl
@[simp] theorem emitTag_out (s : State) : (emitTag s).out = tagOut s := rfl
@[simp] theorem emitTag_status (s : State) : (emitTag s).status = putOkind s.status okindTag := rfl
@[simp] theorem emitTag_ctrl (s : State) : (emitTag s).ctrl = s.ctrl := rfl
@[simp] theorem emitTag_finfo (s : State) : (emitTag s).finfo = s.finfo := rfl
@[simp] theorem emitTag_key (s : State) : (emitTag s).key = s.key := rfl
@[simp] theorem emitTag_non (s : State) : (emitTag s).non = s.non := rfl
@[simp] theorem emitTag_msg (s : State) : (emitTag s).msg = s.msg := rfl
@[simp] theorem emitTag_mb (s : State) : (emitTag s).mb = s.mb := rfl
@[simp] theorem emitTag_params (s : State) : (emitTag s).params = s.params := rfl
@[simp] theorem emitTag_mbEpoch (s : State) : (emitTag s).mbEpoch = s.mbEpoch := rfl
@[simp] theorem emitTag_pending (s : State) : (emitTag s).pending = s.pending := rfl
@[simp] theorem emitTag_reply (s : State) : (emitTag s).reply = s.reply := rfl

@[simp] theorem withCommand_ns (v : Word) (s : State) : (s.withCommand v).ns = s.ns := rfl
@[simp] theorem withCommand_limbs (v : Word) (s : State) : (s.withCommand v).limbs = s.limbs := rfl
@[simp] theorem withCommand_acc (v : Word) (s : State) : (s.withCommand v).acc = s.acc := rfl
@[simp] theorem withCommand_out (v : Word) (s : State) : (s.withCommand v).out = s.out := rfl
@[simp] theorem withCommand_status (v : Word) (s : State) : (s.withCommand v).status = s.status := rfl
@[simp] theorem withCommand_ctrl (v : Word) (s : State) : (s.withCommand v).ctrl = s.ctrl := rfl
@[simp] theorem withCommand_finfo (v : Word) (s : State) : (s.withCommand v).finfo = s.finfo := rfl
@[simp] theorem withCommand_key (v : Word) (s : State) : (s.withCommand v).key = s.key := rfl
@[simp] theorem withCommand_non (v : Word) (s : State) : (s.withCommand v).non = s.non := rfl
@[simp] theorem withCommand_msg (v : Word) (s : State) : (s.withCommand v).msg = s.msg := rfl
@[simp] theorem withCommand_mb (v : Word) (s : State) : (s.withCommand v).mb = s.mb := rfl
@[simp] theorem withCommand_params (v : Word) (s : State) : (s.withCommand v).params = s.params := rfl
@[simp] theorem withCommand_mbEpoch (v : Word) (s : State) : (s.withCommand v).mbEpoch = s.mbEpoch := rfl
@[simp] theorem withCommand_pending (v : Word) (s : State) : (s.withCommand v).pending = .write HostReg.cmd.offset 8 v :: s.pending := rfl
@[simp] theorem withCommand_reply (v : Word) (s : State) : (s.withCommand v).reply = s.reply := rfl

/-- ACC after PA.AUTH: the accumulation and the three multiply-reduce stages (41_pa_unit.md R152). -/
def authAcc (s : State) : Acc :=
  let l := s.keyLimbs
  let x := mulredAcc (s.paAccumulated (strideCount s.msg.len.toNat)) l.r1 l.r0
  mulredAcc (mulredAcc x l.s1 l.s0) l.s1 l.s0

theorem authEffect_eq (s : State) : authEffect s = emitTag { s with limbs := s.keyLimbs, acc := authAcc s } := rfl

@[simp] theorem authEffect_ns (s : State) : (authEffect s).ns = s.ns := rfl
@[simp] theorem authEffect_limbs (s : State) : (authEffect s).limbs = s.keyLimbs := rfl
@[simp] theorem authEffect_acc (s : State) : (authEffect s).acc = authAcc s := rfl
@[simp] theorem authEffect_out (s : State) : (authEffect s).out = tagOut { s with acc := authAcc s } := rfl
@[simp] theorem authEffect_status (s : State) : (authEffect s).status = putOkind s.status okindTag := rfl
@[simp] theorem authEffect_ctrl (s : State) : (authEffect s).ctrl = s.ctrl := rfl
@[simp] theorem authEffect_finfo (s : State) : (authEffect s).finfo = s.finfo := rfl
@[simp] theorem authEffect_key (s : State) : (authEffect s).key = s.key := rfl
@[simp] theorem authEffect_non (s : State) : (authEffect s).non = s.non := rfl
@[simp] theorem authEffect_msg (s : State) : (authEffect s).msg = s.msg := rfl
@[simp] theorem authEffect_mb (s : State) : (authEffect s).mb = s.mb := rfl
@[simp] theorem authEffect_params (s : State) : (authEffect s).params = s.params := rfl
@[simp] theorem authEffect_mbEpoch (s : State) : (authEffect s).mbEpoch = s.mbEpoch := rfl
@[simp] theorem authEffect_pending (s : State) : (authEffect s).pending = s.pending := rfl
@[simp] theorem authEffect_reply (s : State) : (authEffect s).reply = s.reply := rfl

end Sys2Proof.Machine
end

