-- ==== Sys2Proof/Laws/Ops.lean ====
section
/-! SUPPORT. One lemma for each shared operation: what `execute` can do, what the check phases find, the bytes of OUT and of
a buffer read, and the primitives of 00_scope.md R10 and R11 in their usual form. -/

namespace Sys2Proof.Machine

/-- Everything a command can do: it is dropped, it faults, or it runs (30_encoding.md R95, 60_exceptions.md R199). -/
theorem execute_eq (i : Instr) (check : Option Cause) (effect : State → State) (s : State) :
    (s.faulted = true ∧ execute i check effect s = .next s) ∨
    (s.faulted = false ∧ ∃ c, check = some c ∧ execute i check effect s = .next (raise (encode i) c s)) ∨
    (s.faulted = false ∧ check = none ∧ execute i check effect s = .next (effect s)) := by
  unfold execute
  cases h : s.faulted
  · cases check with
    | none => exact .inr (.inr ⟨rfl, rfl, rfl⟩)
    | some c => exact .inr (.inl ⟨rfl, c, rfl, rfl⟩)
  · exact .inl ⟨rfl, rfl⟩

theorem execute_dropped {s : State} (i : Instr) (check : Option Cause) (effect : State → State)
    (h : s.faulted = true) : execute i check effect s = .next s := by
  simp [execute, h]

theorem execute_fault {s : State} (i : Instr) (c : Cause) (effect : State → State)
    (h : s.faulted = false) : execute i (some c) effect s = .next (raise (encode i) c s) := by
  simp [execute, h]

theorem execute_run {s : State} (i : Instr) (effect : State → State)
    (h : s.faulted = false) : execute i none effect s = .next (effect s) := by
  simp [execute, h]

@[simp] theorem firstFault_nil : firstFault [] = none := rfl

@[simp] theorem firstFault_true (c : Cause) (rest : List (Bool × Cause)) :
    firstFault ((true, c) :: rest) = some c := rfl

@[simp] theorem firstFault_false (c : Cause) (rest : List (Bool × Cause)) :
    firstFault ((false, c) :: rest) = firstFault rest := rfl

theorem memWrite_getElem (a : Nat) (v : List Byte) (out : Vector Byte 32) (k : Nat) (h : k < 32) :
    (memWrite a v out)[k] = if a ≤ k ∧ k < a + v.length then v.getD (k - a) 0 else out[k] := by
  simp [memWrite, h]

@[simp] theorem bytesLE64_length (w : Word) : (bytesLE64 w).length = 8 := by simp [bytesLE64]

theorem bytesLE64_getD (w : Word) {k : Nat} (h : k < 8) : (bytesLE64 w).getD k 0 = byteOf w k := by
  simp [bytesLE64, h, List.getD_eq_getElem?_getD]

@[simp] theorem bufRead_length (s : State) (d : Descriptor) (j n : Nat) : (s.bufRead d j n).length = n := by
  simp [State.bufRead]

theorem bufRead_getElem (s : State) (d : Descriptor) {j n k : Nat} (h : k < (s.bufRead d j n).length) :
    (s.bufRead d j n)[k] = s.bufByte d (j + k) := by
  simp [State.bufRead]

/-- A buffer read of a part is a part of the buffer read. -/
theorem bytesFrom_bufRead (s : State) (d : Descriptor) (j : Nat) {n p q : Nat} (h : q ≤ n) :
    bytesFrom (s.bufRead d j n) p q = s.bufRead d (j + p) (q - p) := by
  apply List.ext_getElem
  · simp [bytesFrom]
    omega
  · intro k h1 h2
    simp [bytesFrom, State.bufRead, Nat.add_assoc]

/-- The little-endian value of mapped bytes as the sum of 00_scope.md R11. -/
theorem leNat_range_map (f : Nat → Byte) (n : Nat) :
    leNat ((List.range n).map f) = ∑ j ∈ Finset.range n, (f j).toNat * 2 ^ (8 * j) := by
  induction n generalizing f with
  | zero => simp [leNat]
  | succ n ih =>
    rw [List.range_succ_eq_map, List.map_cons, List.map_map, leNat, ih, Finset.sum_range_succ', Finset.mul_sum, add_comm]
    congr 1
    · refine Finset.sum_congr rfl fun j _ => ?_
      simp only [Function.comp, Nat.succ_eq_add_one]
      ring
    · simp

theorem leNat_lt (b : List Byte) : leNat b < 2 ^ (8 * b.length) := by
  induction b with
  | nil => simp [leNat]
  | cons x rest ih =>
    have hx : x.toNat < 2 ^ 8 := x.isLt
    rw [leNat, List.length_cons, show 8 * (rest.length + 1) = 8 + 8 * rest.length by ring, pow_add]
    nlinarith

/-- The rotation of 00_scope.md R10 is the rotation of bit vectors. -/
theorem rotl64_eq_rotateLeft (a : Word) {n : Nat} (h0 : 0 < n) (h : n < 64) : rotl64 a n = a.rotateLeft n := by
  have disj : (a <<< n) &&& (a >>> (64 - n)) = 0#64 := by
    ext i hi
    simp only [BitVec.getElem_and, BitVec.getElem_shiftLeft, BitVec.getElem_ushiftRight, BitVec.getElem_zero]
    by_cases hin : i < n
    · simp [hin]
    · have : a.getLsbD (64 - n + i) = false := BitVec.getLsbD_of_ge _ _ (by omega)
      simp [this]
  rw [rotl64, BitVec.add_eq_or_of_and_eq_zero _ _ disj, BitVec.rotateLeft_eq_rotateLeftAux_of_lt h]
  rfl

end Sys2Proof.Machine
end

