-- ==== Sys2Proof/Laws/Exec.lean ====
section
/-! SUPPORT. What `exec` and `step` can do, said once: every command that is not a system command is `execute` with its own
check and effect, the two system commands are their updates, and a step performs the first pending access. -/

namespace Sys2Proof.Machine

/-- The check phase of each command: the first fault it finds. -/
def checkOf (i : Instr) (s : State) : Option Cause :=
  match i with
  | .nhXor off | .nhAbs off => messageCheck s off 32
  | .paAddm off => messageCheck s off 16
  | .nhDigest => digestCheck s
  | .paKey => firstFault [(s.keySizeWrong, .invalidKeySize), (!s.inRange s.key, .badDescriptor)]
  | .paAddn => firstFault [(s.nonceSizeWrong, .invalidNonceSize), (!s.inRange s.non, .badDescriptor)]
  | .paAuth => authCheck s
  | .sysClrf | .sysRst | .nhInit | .nhRnd | .nhOut | .paClr | .paMulr | .paMuls | .paTag => none

/-- The execute phase of each command. -/
def effectOf (i : Instr) (s : State) : State :=
  match i with
  | .sysClrf => clearFault s
  | .sysRst => softReset s
  | .nhInit => { s with ns := nhConstants s.params }
  | .nhXor off => { s with ns := xorBlock s.ns (s.nhBlock off) }
  | .nhRnd => { s with ns := nhRound s.ns }
  | .nhAbs off => { s with ns := absorbBlock s.ns (s.nhBlock off) }
  | .nhOut => emitDigest s
  | .nhDigest => emitDigest { s with ns := s.nhDigestState }
  | .paKey => { s with limbs := s.keyLimbs }
  | .paClr => { s with acc := 0 }
  | .paAddn => { s with acc := addStride s.acc s.nonceStride }
  | .paAddm off => { s with acc := addStride s.acc (s.messageStride off) }
  | .paMulr => { s with acc := mulredAcc s.acc s.limbs.r1 s.limbs.r0 }
  | .paMuls => { s with acc := mulredAcc s.acc s.limbs.s1 s.limbs.s0 }
  | .paTag => emitTag s
  | .paAuth => authEffect s

theorem exec_sysClrf (s : State) : exec .sysClrf s = .next (clearFault s) := rfl

theorem exec_sysRst (s : State) : exec .sysRst s = .next (softReset s) := rfl

/-- Every command but the two system ones has the shape of `execute`. -/
theorem exec_eq_execute {i : Instr} (h : isSysCommand i = false) (s : State) :
    exec i s = execute i (checkOf i s) (effectOf i) s := by
  cases i <;> first | rfl | (simp [isSysCommand] at h)

/-- Everything `exec` can do: a system command runs in every state; any other command is dropped while a fault is recorded,
and otherwise records the first fault of its check or takes effect in full. -/
theorem exec_cases (i : Instr) (s : State) :
    (isSysCommand i = true ∧ exec i s = .next (effectOf i s)) ∨
    (isSysCommand i = false ∧ s.faulted = true ∧ exec i s = .next s) ∨
    (isSysCommand i = false ∧ s.faulted = false ∧
      ∃ c, checkOf i s = some c ∧ exec i s = .next (raise (encode i) c s)) ∨
    (isSysCommand i = false ∧ s.faulted = false ∧ checkOf i s = none ∧ exec i s = .next (effectOf i s)) := by
  cases h : isSysCommand i
  · rw [exec_eq_execute h]
    rcases execute_eq i (checkOf i s) (effectOf i) s with ⟨f, e⟩ | ⟨f, c, k, e⟩ | ⟨f, k, e⟩
    · exact .inr (.inl ⟨rfl, f, e⟩)
    · exact .inr (.inr (.inl ⟨rfl, f, c, k, e⟩))
    · exact .inr (.inr (.inr ⟨rfl, f, k, e⟩))
  · refine .inl ⟨rfl, ?_⟩
    cases i <;> first | rfl | (simp [isSysCommand] at h)

theorem firstFault_eq_none {l : List (Bool × Cause)} : firstFault l = none ↔ ∀ p ∈ l, p.1 = false := by
  induction l with
  | nil => simp
  | cons p l ih =>
    obtain ⟨b, c⟩ := p
    cases b <;> simp [ih]

/-- `inRange` is the negation of the condition of BadDescriptor. -/
theorem inRange_eq (s : State) (d : Descriptor) : s.inRange d = !decide (outOfRange s d) := by
  by_cases h : s.params.mbCap < d.off.toNat + d.len.toNat
  · simp [State.inRange, outOfRange, h]
  · simp [State.inRange, outOfRange, h, not_lt.mp h]

/-- A step with a pending access performs it on the state in which it is no longer pending. -/
theorem step_pending {s : State} {x : HostAccess} {rest : List HostAccess} (h : s.pending = x :: rest) :
    step s = hostAccess x { s with pending := rest } := by
  simp only [step, serve, h]

theorem step_idle {s : State} (h : s.pending = []) : step s = .next s := by
  simp only [step, serve, h]

/-- A 64-bit write at the offset of CMD issues the value as a command. -/
theorem hostWrite_cmd (v : Word) (s : State) : hostWrite 0x000 8 v s = issue v s := by
  simp [hostWrite, targetOf, blockEnd, regAt, regWrite]

/-- What no execute phase writes: everything but the working registers, OUT and STATUS. -/
theorem effectOf_keeps {i : Instr} (h : isSysCommand i = false) (s : State) :
    (effectOf i s).ctrl = s.ctrl ∧ (effectOf i s).finfo = s.finfo ∧ (effectOf i s).key = s.key ∧
    (effectOf i s).non = s.non ∧ (effectOf i s).msg = s.msg ∧ (effectOf i s).mb = s.mb ∧
    (effectOf i s).params = s.params ∧ (effectOf i s).mbEpoch = s.mbEpoch ∧
    (effectOf i s).pending = s.pending ∧ (effectOf i s).reply = s.reply := by
  cases i <;> first | (simp [isSysCommand] at h; done) | simp [effectOf]

/-- No execute phase writes FAULT or CAUSE. -/
theorem effectOf_fault {i : Instr} (h : isSysCommand i = false) (s : State) :
    statusFault (effectOf i s).status = statusFault s.status ∧
    statusCause (effectOf i s).status = statusCause s.status := by
  cases i <;> first | (simp [isSysCommand] at h; done) | simp [effectOf]

/-- All that the check phases read besides FAULT (60_exceptions.md R199). -/
theorem checkOf_congr (i : Instr) {s s' : State} (hc : s'.ctrl = s.ctrl) (hk : s'.key = s.key) (hn : s'.non = s.non)
    (hm : s'.msg = s.msg) (hp : s'.params = s.params) : checkOf i s' = checkOf i s := by
  cases i <;>
    simp [checkOf, messageCheck, digestCheck, authCheck, State.underflows, State.keySizeWrong, State.nonceSizeWrong,
      State.inRange, State.zpad, hc, hk, hn, hm, hp]

/-- An execute phase changes no later command's check. -/
theorem checkOf_effectOf {i : Instr} (h : isSysCommand i = false) (j : Instr) (s : State) :
    checkOf j (effectOf i s) = checkOf j s := by
  obtain ⟨hc, _, hk, hn, hm, _, hp, _⟩ := effectOf_keeps h s
  exact checkOf_congr j hc hk hn hm hp

/-- A sequence of commands that ends normally goes on with what follows it. -/
theorem execAll_append {l : List Instr} {s t : State} (l' : List Instr) (h : execAll l s = .next t) :
    execAll (l ++ l') s = execAll l' t := by
  induction l generalizing s with
  | nil => cases h; rfl
  | cons i l ih =>
    simp only [List.cons_append, execAll] at h ⊢
    split at h <;> first | exact ih h | cases h

theorem execAll_cons {i : Instr} {s t : State} (l : List Instr) (h : exec i s = .next t) :
    execAll (i :: l) s = execAll l t := by
  simp [execAll, h]

end Sys2Proof.Machine
end

