-- ==== Sys2Proof/Laws/Memory.lean ====
section
/-! SUPPORT. MB: read after write, the frame of a write, and the canonical form kept by every operation. -/

namespace Sys2Proof.Machine

theorem read?_write_same (m : Memory) (a : Nat) (b : Byte) : Memory.read? (Memory.write m a b) a = some b := by
  induction m with
  | nil => simp [Memory.write, Memory.read?]
  | cons c rest ih =>
    obtain ⟨x, d⟩ := c
    simp only [Memory.write]
    split
    · simp [Memory.read?]
    · split
      · simp [Memory.read?]
      · rename_i _ ne
        simp [Memory.read?, ne, ih]

theorem read?_write_other (m : Memory) {a e : Nat} (b : Byte) (h : e ≠ a) :
    Memory.read? (Memory.write m a b) e = Memory.read? m e := by
  induction m with
  | nil => simp [Memory.write, Memory.read?, h]
  | cons c rest ih =>
    obtain ⟨x, d⟩ := c
    simp only [Memory.write]
    split
    · simp [Memory.read?, h]
    · split
      · rename_i eq
        subst eq
        simp [Memory.read?, h]
      · simp [Memory.read?, ih]

theorem mem_write {m : Memory} {a : Nat} {b : Byte} {c : Host.Cell} (h : c ∈ Memory.write m a b) :
    c = (a, b) ∨ c ∈ m := by
  induction m with
  | nil => simpa [Memory.write] using h
  | cons d rest ih =>
    obtain ⟨x, e⟩ := d
    simp only [Memory.write] at h
    split at h
    · simpa using h
    · split at h
      · rcases List.mem_cons.mp h with h | h
        · exact .inl h
        · exact .inr (List.mem_cons_of_mem _ h)
      · rcases List.mem_cons.mp h with h | h
        · exact .inr (h ▸ List.mem_cons_self)
        · exact (ih h).imp id (List.mem_cons_of_mem _)

theorem wf_write {m : Memory} (a : Nat) (b : Byte) (h : Memory.wf m) : Memory.wf (Memory.write m a b) := by
  induction m with
  | nil => simp [Memory.write, Memory.wf]
  | cons c rest ih =>
    obtain ⟨x, d⟩ := c
    obtain ⟨hx, hr⟩ := List.pairwise_cons.mp h
    simp only [Memory.write]
    split
    · rename_i lt
      refine List.pairwise_cons.mpr ⟨fun e he => ?_, h⟩
      rcases List.mem_cons.mp he with he | he
      · exact he ▸ lt
      · exact lt.trans (hx e he)
    · split
      · rename_i eq
        subst eq
        exact List.pairwise_cons.mpr ⟨hx, hr⟩
      · refine List.pairwise_cons.mpr ⟨fun e he => ?_, ih hr⟩
        rcases mem_write he with rfl | he
        · show x < a
          omega
        · exact hx e he

theorem wf_writeBytes {m : Memory} (a : Nat) (v : Word) (n : Nat) (h : Memory.wf m) :
    Memory.wf (Memory.writeBytes m a v n) := by
  induction n with
  | zero => exact h
  | succ n ih => exact wf_write _ _ ih

theorem mem_writeBytes {m : Memory} {a : Nat} {v : Word} {n : Nat} {c : Host.Cell}
    (h : c ∈ Memory.writeBytes m a v n) : (a ≤ c.1 ∧ c.1 < a + n) ∨ c ∈ m := by
  induction n with
  | zero => exact .inr h
  | succ n ih =>
    rcases mem_write h with rfl | h
    · exact .inl ⟨Nat.le_add_right a n, by show a + n < a + (n + 1); omega⟩
    · exact (ih h).imp (fun k => ⟨k.1, by omega⟩) id

theorem read?_writeBytes_inside (m : Memory) (a : Nat) (v : Word) {n k : Nat} (h : k < n) :
    Memory.read? (Memory.writeBytes m a v n) (a + k) = some (byteOf v k) := by
  induction n with
  | zero => omega
  | succ n ih =>
    by_cases e : k = n
    · subst e
      exact read?_write_same _ _ _
    · rw [Memory.writeBytes, read?_write_other _ _ (by omega)]
      exact ih (by omega)

theorem read?_writeBytes_outside (m : Memory) (v : Word) {a b n : Nat} (h : b < a ∨ a + n ≤ b) :
    Memory.read? (Memory.writeBytes m a v n) b = Memory.read? m b := by
  induction n with
  | zero => rfl
  | succ n ih =>
    rw [Memory.writeBytes, read?_write_other _ _ (by omega)]
    exact ih (by omega)

end Sys2Proof.Machine
end

