-- ==== Sys2Proof/Laws/Host.lean ====
section
/-! SUPPORT. Where the host's accesses of each supported form fall, and what a read can do. -/

namespace Sys2Proof.Machine

theorem widthOk_of_mem {w : Nat} (h : w ∈ [1, 2, 4, 8]) : widthOk w = true := by
  simp only [List.mem_cons, List.not_mem_nil, or_false] at h
  rcases h with rfl | rfl | rfl | rfl <;> rfl

theorem windowBase_add_sub (a : Nat) : 0x01000000 + a - windowBase = a := by
  unfold windowBase
  omega

/-- An access of a supported width whose bytes are all below the capacity falls on the window. -/
theorem targetOf_window (cap : Nat) (isRead : Bool) {a w : Nat} (hw : w ∈ [1, 2, 4, 8]) (h : a + w ≤ cap) :
    targetOf cap isRead (0x01000000 + a) w = .window a := by
  unfold targetOf
  rw [if_neg (by unfold blockEnd; omega), if_neg (by unfold windowBase; omega), if_pos (widthOk_of_mem hw),
    windowBase_add_sub, if_pos h]

/-- A 64-bit write at a register's offset falls on the register. -/
theorem targetOf_register (cap : Nat) {offset : Nat} {r : HostReg} (h : offset < 0x1000) (h8 : offset % 8 = 0)
    (hr : regAt offset = some r) : targetOf cap false offset 8 = .register r := by
  unfold targetOf
  rw [if_pos (by exact h), if_neg (by simp), if_pos ⟨rfl, h8⟩, hr]

/-- A host read changes nothing but the host's own reply. -/
theorem hostRead_next {offset w : Nat} {s t : State} (h : hostRead offset w s = .next t) :
    ∃ v, t = { s with reply := some v } := by
  unfold hostRead at h
  split at h <;> first | (cases h; done) | (cases h; exact ⟨_, rfl⟩)

end Sys2Proof.Machine
end

