-- ==== Sys2Proof/Laws/PerInstr.lean ====
section
/-! SUPPORT. Per-command statements over the syntax. EncodedWord: the word `encode` gives is the opcode at bits 31:24 and the
offset field below it, with a zero upper half (30_encoding.md R91, R92, R98), for every well-formed command. -/

namespace Sys2Proof.Laws.EncodedWord

def Statement (i : Instr) : Prop :=
  i.wellFormed = true →
    slice (encode i) 63 32 = 0 ∧ slice (encode i) 31 24 = i.opcode ∧ slice (encode i) 23 0 = i.offsetField

theorem of_bounds {i : Instr} (ho : i.opcode < 2 ^ 8) (hf : i.wellFormed = true → i.offsetField < 2 ^ 24) :
    Statement i := by
  intro h
  have hf := hf h
  simp only [slice, encode, BitVec.toNat_ofNat, Nat.shiftLeft_eq]
  omega

theorem sysClrf : Statement .sysClrf := of_bounds (by decide) (by decide)
theorem sysRst : Statement .sysRst := of_bounds (by decide) (by decide)
theorem nhInit : Statement .nhInit := of_bounds (by decide) (by decide)
theorem nhXor (off : Nat) : Statement (.nhXor off) :=
  of_bounds (by simp [Instr.opcode]) (by simp [Instr.wellFormed, offsetFits, Instr.offsetField])
theorem nhRnd : Statement .nhRnd := of_bounds (by decide) (by decide)
theorem nhAbs (off : Nat) : Statement (.nhAbs off) :=
  of_bounds (by simp [Instr.opcode]) (by simp [Instr.wellFormed, offsetFits, Instr.offsetField])
theorem nhOut : Statement .nhOut := of_bounds (by decide) (by decide)
theorem nhDigest : Statement .nhDigest := of_bounds (by decide) (by decide)
theorem paKey : Statement .paKey := of_bounds (by decide) (by decide)
theorem paClr : Statement .paClr := of_bounds (by decide) (by decide)
theorem paAddn : Statement .paAddn := of_bounds (by decide) (by decide)
theorem paAddm (off : Nat) : Statement (.paAddm off) :=
  of_bounds (by simp [Instr.opcode]) (by simp [Instr.wellFormed, offsetFits, Instr.offsetField])
theorem paMulr : Statement .paMulr := of_bounds (by decide) (by decide)
theorem paMuls : Statement .paMuls := of_bounds (by decide) (by decide)
theorem paTag : Statement .paTag := of_bounds (by decide) (by decide)
theorem paAuth : Statement .paAuth := of_bounds (by decide) (by decide)

end Sys2Proof.Laws.EncodedWord
end

