-- ==== Sys2Proof/Laws/Units.lean ====
section
/-! SUPPORT. The operations of the two units in the terms of Safety.lean: buffer words and strides as sums, the round, the
absorb, the accumulator's updates as naturals, and the bytes of OUT. -/

namespace Sys2Proof.Machine

theorem le64_bufRead (s : State) (d : Descriptor) (k : Nat) : le64 (s.bufRead d k 8) = bufWord s d k := by
  rw [le64, State.bufRead, leNat_range_map, bufWord]

theorem bufWord_toNat (s : State) (d : Descriptor) (k : Nat) :
    (bufWord s d k).toNat = ∑ j ∈ Finset.range 8, (s.bufByte d (k + j)).toNat * 2 ^ (8 * j) := by
  rw [bufWord, BitVec.toNat_ofNat, Nat.mod_eq_of_lt]
  rw [← leNat_range_map (fun j => s.bufByte d (k + j))]
  simpa using leNat_lt ((List.range 8).map fun j => s.bufByte d (k + j))

/-- A stride as its two words, the low word last; the modulus is a variable so that no unifier unfolds the power. -/
theorem le128_words (b : List Byte) {m : Nat} (hm : m = 2 ^ 64) :
    le128 b = (le64 (bytesFrom b 8 16)).toNat * m + (le64 (bytesFrom b 0 8)).toNat := by
  subst hm
  unfold le128
  generalize (le64 (bytesFrom b 8 16)).toNat = x
  generalize (le64 (bytesFrom b 0 8)).toNat = y
  exact (congrArg (y + ·) (Nat.shiftLeft_eq x 64)).trans (Nat.add_comm _ _)

theorem bufStride_words (s : State) (d : Descriptor) (k : Nat) :
    bufStride s d k = (bufWord s d (k + 8)).toNat * 2 ^ 64 + (bufWord s d k).toNat := by
  rw [bufWord_toNat, bufWord_toNat, bufStride]
  refine (Finset.sum_range_add _ 8 8).trans ?_
  rw [Finset.sum_mul]
  refine (Nat.add_comm _ _).trans (congrArg₂ _ (Finset.sum_congr rfl fun j _ => ?_) rfl)
  rw [show k + 8 + j = k + (8 + j) by ring, show 8 * (8 + j) = 8 * j + 64 by ring, pow_add]
  ring

/-- `LE128` of a 16-byte buffer read is the sum of 00_scope.md R11. -/
theorem le128_bufRead (s : State) (d : Descriptor) (k : Nat) : le128 (s.bufRead d k 16) = bufStride s d k := by
  rw [le128_words _ rfl, bufStride_words, bytesFrom_bufRead s d k (n := 16) (p := 8) (q := 16) le_rfl,
    bytesFrom_bufRead s d k (n := 16) (p := 0) (q := 8) (by norm_num)]
  simp only [Nat.add_zero, show 16 - 8 = 8 from rfl, le64_bufRead]

/-- The two forms of 40_nh_unit.md R112 are one function. -/
theorem nhRound_eq (x : NhState) : nhRound x = roundSpec x := by
  simp [nhRound, roundSpec, rotl64_eq_rotateLeft]

theorem xorBlock_nhBlock (s : State) (off : Nat) (x : NhState) :
    xorBlock x (s.nhBlock off) = xorMessage s off x := by
  simp only [State.nhBlock, words4, xorBlock, xorMessage, bytesFrom_bufRead s s.msg off (show 8 ≤ 32 by norm_num),
    bytesFrom_bufRead s s.msg off (show 16 ≤ 32 by norm_num),
    bytesFrom_bufRead s s.msg off (show 24 ≤ 32 by norm_num), bytesFrom_bufRead s s.msg off (le_refl 32)]
  simp [le64_bufRead]

theorem absorbBlock_nhBlock (s : State) (off : Nat) (x : NhState) :
    absorbBlock x (s.nhBlock off) = roundSpec (roundSpec (roundSpec (roundSpec (xorMessage s off x)))) := by
  simp only [absorbBlock, roundsPerBlock, nhRounds, xorBlock_nhBlock, nhRound_eq]

theorem keyLimbs_eq (s : State) : s.keyLimbs = limbsSpec s := by
  simp only [State.keyLimbs, clamp, limbsSpec, keyLimb, bytesFrom_bufRead s s.key 0 (show 8 ≤ 32 by norm_num),
    bytesFrom_bufRead s s.key 0 (show 16 ≤ 32 by norm_num), bytesFrom_bufRead s s.key 0 (show 24 ≤ 32 by norm_num),
    bytesFrom_bufRead s s.key 0 (le_refl 32)]
  simp [le64_bufRead, maskLo, maskHi]

theorem addStride_toNat (x : Acc) (b : List Byte) : (addStride x b).toNat = (x.toNat + le128 b) % 2 ^ 132 := by
  rw [addStride, BitVec.toNat_ofNat, accModulus, Nat.mod_mod]

theorem mulredAcc_toNat (x : Acc) (h l : Word) :
    (mulredAcc x h l).toNat = mulredSpec x.toNat h.toNat l.toNat := by
  rw [mulredAcc, BitVec.toNat_ofNat, mulred, mulredSpec, accModulus, Nat.mod_mod]

theorem accLow_toNat (x : Acc) : (x.extractLsb' 0 64).toNat = x.toNat % 2 ^ 64 := by
  rw [BitVec.extractLsb'_toNat, Nat.shiftRight_zero]

theorem accMiddle_toNat (x : Acc) : (x.extractLsb' 64 64).toNat = x.toNat / 2 ^ 64 % 2 ^ 64 := by
  rw [BitVec.extractLsb'_toNat, Nat.shiftRight_eq_div_pow]

end Sys2Proof.Machine
end

