-- ==== Sys2Proof/Machine/Assembler.lean ====
section
/-! DEFINITION. The notation of 30_encoding.md R98 and R99: a mnemonic line as a command, the pseudo-commands, and the
host script words WR, RD, MBW and CMD as host accesses. -/

namespace Sys2Proof.Machine

/-- The value of one digit in base ten or sixteen. -/
def digitValue (base : Nat) (c : Char) : Option Nat :=
  let n := c.toNat
  let d :=
    if 48 ≤ n ∧ n ≤ 57 then n - 48
    else if 65 ≤ n ∧ n ≤ 70 then n - 55
    else if 97 ≤ n ∧ n ≤ 102 then n - 87
    else base
  if d < base then some d else none

/-- Digits after the value `acc` read so far; "an underscore inside a literal is a visual separator" (00_scope.md R9).
DESIGN CHOICE, safe: an underscore is passed over at every place, so a numeral may begin or end with one, and one without
any digit is read as 0 (notes/assumptions/15.md). -/
def readDigits (base : Nat) : List Char → Nat → Option Nat
  | [], acc => some acc
  | c :: rest, acc =>
    if c = '_' then readDigits base rest acc
    else
      match digitValue base c with
      | some d => readDigits base rest (acc * base + d)
      | none => none

/-- "a decimal or `0x` hexadecimal natural" (30_encoding.md R98). DESIGN CHOICE, safe: no characters at all and a bare `0x`
are no numeral, while `_` and `0x_`, underscores only, are the numeral 0 (notes/assumptions/15.md). -/
def readNumeral : List Char → Option Nat
  | [] => none
  | ['0', 'x'] => none
  | '0' :: 'x' :: digits => readDigits 16 digits 0
  | digits => readDigits 10 digits 0

/-- The commands without an operand (30_encoding.md R94). -/
def plainCommands : List Instr :=
  [.sysClrf, .sysRst, .nhInit, .nhRnd, .nhOut, .nhDigest] ++
  [.paKey, .paClr, .paAddn, .paMulr, .paMuls, .paTag, .paAuth]

/-- A line with no operand: a format-N mnemonic, or PA.RED or PA.FIN (30_encoding.md R98, R99). -/
def assemblePlain (name : String) : Option (List Instr) :=
  if name == "PA.RED" then some Pseudo.paRed.expand
  else if name == "PA.FIN" then some Pseudo.paFin.expand
  else (plainCommands.find? fun i => i.mnemonic == name).map fun i => [i]

/-- A line with an offset: a format-A mnemonic, or NH.TAIL (30_encoding.md R98, R99). -/
def assembleOffset (name : String) (off : Nat) : Option (List Instr) :=
  if offsetFits off then
    if name == "NH.TAIL" then some (Pseudo.nhTail off).expand
    else ([.nhXor off, .nhAbs off, .paAddm off].find? fun i : Instr => i.mnemonic == name).map fun i => [i]
  else none

/-- The commands of a mnemonic line: the mnemonic, "followed for format A by one space and the offset"
(30_encoding.md R98); a pseudo-command gives its expansion (R99). -/
def assemble (line : String) : Option (List Instr) :=
  let parts := line.toList.span (· ≠ ' ')
  match parts.2 with
  | [] => assemblePlain (String.ofList parts.1)
  | _ :: operand => (readNumeral operand).bind (assembleOffset (String.ofList parts.1))

/-- `WR <register>, <value>` (30_encoding.md R98). -/
def scriptWR (r : HostReg) (v : Word) : HostAccess := .write r.offset 8 v

/-- `RD <register>` (30_encoding.md R98). -/
def scriptRD (r : HostReg) : HostAccess := .read r.offset 8

/-- `MBW <address>, <hex bytes>`: "write the bytes to `MB` from that address upward" (30_encoding.md R98). -/
def scriptMBW : Nat → List Byte → List HostAccess
  | _, [] => []
  | a, b :: rest => .write (windowBase + a) 1 (b.setWidth 64) :: scriptMBW (a + 1) rest

/-- `CMD <mnemonic line>`: "write the encoding to `CMD`" (30_encoding.md R98). -/
def scriptCMD (i : Instr) : HostAccess := .write HostReg.cmd.offset 8 (encode i)

end Sys2Proof.Machine
end

