-- ==== Sys2Proof/Tests/Slice0.lean ====
section
/-! SUPPORT. The model's own tests: the WellFormed smoke test, the command words written out from 30_encoding.md R94, one or
two vectors of 95_test_vectors.md for each command, and for each statement with hypotheses a state that meets them.
Expected values are copied from the vector or the rule each test names. The constants are the vectors' illustrative
ones. -/

namespace Sys2Proof.Tests

open Sys2Proof Sys2Proof.Machine

/-! ### Helpers -/

/-- `r` is a next state of which `p` holds. -/
def after (r : Result) (p : State → Bool) : Bool :=
  match r with
  | .next t => p t
  | .fault _ => false
  | .refused _ => false

theorem of_after {r : Result} {p : State → Bool} (h : after r p = true) : ∃ t, r = .next t ∧ p t = true := by
  cases r with
  | next t => exact ⟨t, rfl, h⟩
  | fault f => exact absurd h (by simp [after])
  | refused f => exact absurd h (by simp [after])

/-- After a hard reset, with the illustrative constants of 95_test_vectors.md and MB_CAP = 256. -/
def fresh : State :=
  { State.reset with params := { nhC0 := 0x0123456789ABCDEF, nhC1 := 0xFEDCBA9876543210, mbCap := 256 } }

/-- Bytes in MB from address `a`. -/
def image (a : Nat) (bytes : List Byte) : Memory := bytes.zipIdx.map fun p => (a + p.2, p.1)

/-- The n bytes whose values equal their index. -/
def rising (n : Nat) : List Byte := (List.range n).map fun k => BitVec.ofNat 8 k

/-- A message alone, at address 0, with CTRL. -/
def withMessage (ctrl : Word) (bytes : List Byte) : State :=
  { fresh with ctrl := ctrl, msg := { off := 0, len := BitVec.ofNat 64 bytes.length }, mb := image 0 bytes }

/-- The key of 95_test_vectors.md S1. -/
def goldenKey : List Byte :=
  [0x85, 0xd6, 0xbe, 0x78, 0x57, 0x55, 0x6d, 0x33, 0x7f, 0x44, 0x52, 0xfe, 0x42, 0xd5, 0x06, 0xa8] ++
  [0x01, 0x03, 0x80, 0x8a, 0xf4, 0xdb, 0x2f, 0x0b, 0x3e, 0x5c, 0x5c, 0x0e, 0x07, 0x08, 0x8b, 0x07]

/-- The nonce of 95_test_vectors.md S1. -/
def goldenNonce : List Byte :=
  [0xa8, 0x06, 0x1d, 0xc1, 0x30, 0x51, 0x36, 0xc6, 0xc2, 0x2b, 0x8b, 0xaf, 0x0c, 0x01, 0x27, 0xa9]

/-- Golden key at 0, a nonce at 32, a message at 64. -/
def withNonce (ctrl : Word) (nonce message : List Byte) : State :=
  { fresh with
    ctrl := ctrl, key := { off := 0, len := 32 }, non := { off := 32, len := 16 }
    msg := { off := 64, len := BitVec.ofNat 64 message.length }
    mb := image 0 goldenKey ++ image 32 nonce ++ image 64 message }

def golden (ctrl : Word) (message : List Byte) : State := withNonce ctrl goldenNonce message

/-- The same with the limbs V-PA-1 gives and an accumulator value. -/
def goldenAcc (x : Acc) : State :=
  { golden 0 [] with
    acc := x
    limbs := { r0 := 0x036D555778BED685, r1 := 0x0806D542FE52447C
               s0 := 0x0B2FDBF48A800301, s1 := 0x078B08070E5C5C3C } }

/-- The start of section 4 of 95_test_vectors.md. -/
def faultStart : State :=
  { fresh with key := { off := 0, len := 32 }, non := { off := 32, len := 16 }, msg := { off := 64, len := 0 } }

/-- A recorded BufferUnderflow of PA.AUTH (V-FLT-15). -/
def recorded : State := { fresh with status := 0x41, finfo := 0x000000002F000000 }

/-- `s` with one access pending. -/
def about (s : State) (x : HostAccess) : State := { s with pending := [x] }

/-! ### Well-formed terms: one ill-formed term for each check -/

theorem test_wf_nhXor : (Instr.nhXor (2 ^ 24)).wellFormed = false ∧ (Instr.nhXor (2 ^ 24 - 1)).wellFormed = true := by
  decide
theorem test_wf_nhAbs : (Instr.nhAbs (2 ^ 24)).wellFormed = false ∧ (Instr.nhAbs (2 ^ 24 - 1)).wellFormed = true := by
  decide
theorem test_wf_paAddm : (Instr.paAddm (2 ^ 24)).wellFormed = false ∧ (Instr.paAddm (2 ^ 24 - 1)).wellFormed = true := by
  decide

/-! ### Decoding: the words of 30_encoding.md R91, R92, R94, bit by bit -/

theorem test_decode_sys :
    decode (0x00000000#32 ++ 0x01#8 ++ 0x000000#24) = .command .sysClrf ∧
    decode (0x00000000#32 ++ 0x02#8 ++ 0x000000#24) = .command .sysRst := by decide

theorem test_decode_nh :
    decode (0#32 ++ 0b00010000#8 ++ 0#24) = .command .nhInit ∧
    decode (0#32 ++ 0b00010001#8 ++ 0b000000000000000000000001#24) = .command (.nhXor 1) ∧
    decode (0#32 ++ 0b00010010#8 ++ 0#24) = .command .nhRnd ∧
    decode (0#32 ++ 0b00010011#8 ++ 0b100000000000000000000000#24) = .command (.nhAbs 0x800000) ∧
    decode (0#32 ++ 0b00010100#8 ++ 0#24) = .command .nhOut ∧
    decode (0#32 ++ 0b00011111#8 ++ 0#24) = .command .nhDigest := by decide

theorem test_decode_pa :
    decode (0#32 ++ 0b00100000#8 ++ 0#24) = .command .paKey ∧
    decode (0#32 ++ 0b00100001#8 ++ 0#24) = .command .paClr ∧
    decode (0#32 ++ 0b00100010#8 ++ 0#24) = .command .paAddn ∧
    decode (0#32 ++ 0b00100011#8 ++ 0b000000000000000000010000#24) = .command (.paAddm 16) ∧
    decode (0#32 ++ 0b00100100#8 ++ 0#24) = .command .paMulr ∧
    decode (0#32 ++ 0b00100101#8 ++ 0#24) = .command .paMuls ∧
    decode (0#32 ++ 0b00100110#8 ++ 0#24) = .command .paTag ∧
    decode (0#32 ++ 0b00101111#8 ++ 0#24) = .command .paAuth := by decide

/-- V-FLT-1 to V-FLT-3 and V-FLT-15: illegal words. -/
theorem test_decode_illegal :
    decode 0x0000000000000000 = .illegal .unassignedOpcode ∧
    decode 0x0000000110000000 = .illegal .upperHalfNotZero ∧
    decode 0x0000000012000001 = .illegal .operandNotZero ∧
    decode 0x0000000015000000 = .illegal .unassignedOpcode ∧
    decode 0x00000000FF000000 = .illegal .unassignedOpcode ∧
    decode 0x0000000001000001 = .illegal .operandNotZero := by decide

/-- 30_encoding.md R98, R99: mnemonic lines and pseudo-commands. -/
theorem test_assemble :
    assemble "NH.ABS 32" = some [.nhAbs 32] ∧ assemble "PA.ADDM 0x10" = some [.paAddm 16] ∧
    assemble "NH.DIGEST" = some [.nhDigest] ∧ assemble "PA.FIN" = some [.paMuls, .paTag] ∧
    assemble "NH.TAIL 0x2_0" = some [.nhXor 32] ∧ assemble "NH.ABS 16777216" = none ∧
    assemble "NH.NOP" = none := by decide

theorem test_tableWord : decodeTableWord 64 0x23000010 = some (.paAddm 16) ∧ decodeTableWord 64 0 = none := by decide

theorem test_fetchWord :
    after (step (State.reset.withFetchWord 64 0x01000000)) (fun t => t.pending == [] && t.status == 0) = true := by
  decide

/-! ### System commands -/

/-- V-FLT-16. -/
theorem test_sysClrf : after (exec .sysClrf recorded) (fun t => t.status == 0 && t.finfo == 0) = true := by decide

/-- V-FLT-18. -/
theorem test_sysClrf_keeps_okind :
    after (exec .sysClrf { fresh with status := 0x200 }) (fun t => t == { fresh with status := 0x200 }) = true := by
  decide

/-- V-FLT-17. -/
theorem test_sysRst :
    after (exec .sysRst { goldenAcc 1 with status := 0x241, ctrl := 1 })
      (fun t => t == { fresh with mb := (golden 0 []).mb }) = true := by decide

/-! ### NH unit -/

/-- V-NH-10, first sentence. -/
theorem test_nhInit :
    after (exec .nhInit fresh) (fun t => t.ns ==
      { a := 0x0123456789ABCDEF, b := 0xFEDCBA9876543210, c := 0x0123456789ABCDEF, d := 0xFEDCBA9876543210 }) =
      true := by decide

/-- V-NH-7. -/
theorem test_nhRnd :
    after (exec .nhRnd { fresh with ns :=
      { a := 0x0123456789ABCDEF, b := 0xFEDCBA9876543210, c := 0x0F1E2D3C4B5A6978, d := 0x8796A5B4C3D2E1F0 } })
      (fun t => t.ns ==
        { a := 0x33001123EEDDCCFD, b := 0x1D0B375D48A3FAD5, c := 0x88EB2B8CFF61C426, d := 0x177DCA9A711BACFF }) =
      true := by decide

/-- V-NH-6: every addition overflows. -/
theorem test_nhRnd_wraps :
    after (exec .nhRnd { fresh with ns :=
      { a := 0xFFFFFFFFFFFFFFFF, b := 0xFFFFFFFFFFFFFFFF, c := 0xFFFFFFFFFFFFFFFF, d := 0xFFFFFFFFFFFFFFFF } })
      (fun t => t.ns ==
        { a := 0xFFFFFFFF00000000, b := 0xFFFFFFFFFFFDFFFF, c := 0xFFFFFFFFFFFFFFFF, d := 0xFFFFFFFF00200000 }) =
      true := by decide

/-- V-NH-11. -/
theorem test_nhXor :
    after (exec (.nhXor 0) (withMessage 0 (rising 32))) (fun t => t.ns ==
      { a := 0x0706050403020100, b := 0x0F0E0D0C0B0A0908, c := 0x1716151413121110, d := 0x1F1E1D1C1B1A1918 }) =
      true := by decide

/-- V-NH-11, last sentence, and V-FLT-14. -/
theorem test_nhXor_underflow :
    after (exec (.nhXor 1) (withMessage 0 (rising 32)))
      (fun t => t.status == 0x41 && t.finfo == 0x11000001 && t.ns == fresh.ns) = true := by decide

/-- V-NH-12. -/
theorem test_nhAbs :
    after (exec (.nhAbs 0) (withMessage 0 (rising 32))) (fun t => t.ns ==
      { a := 0x1E863E62F986E270, b := 0xE0FEB246D08C71D1, c := 0x95701EF9670BBD45, d := 0x59CA082BBADD9A96 }) =
      true := by decide

/-- V-NH-12b. -/
theorem test_nhOut :
    after (exec .nhOut { fresh with ns :=
      { a := 0x0706050403020100, b := 0x0F0E0D0C0B0A0908, c := 0x1716151413121110, d := 0x1F1E1D1C1B1A1918 } })
      (fun t => t.out.toList == rising 32 && t.status == 0x100) = true := by decide

/-- V-NH-14: the tail window does not overlap the block before it. -/
theorem test_nhDigest :
    after (exec .nhDigest (withMessage 1 (rising 33))) (fun t =>
      t.out.toList ==
        [0x97, 0x3e, 0xcc, 0x6d, 0xbc, 0xb0, 0x87, 0xe8, 0xb9, 0xb3, 0xf2, 0xd7, 0x56, 0x30, 0x5e, 0x7a] ++
        [0x7f, 0xea, 0xc3, 0xac, 0x0a, 0xd8, 0xce, 0xed, 0x23, 0xb9, 0x6b, 0x22, 0xc0, 0x94, 0xdf, 0x84] &&
      t.status == 0x100) = true := by decide

/-- V-FLT-19: the fault is recorded, the kind of the old output stays. -/
theorem test_nhDigest_underflow :
    after (exec .nhDigest { faultStart with status := 0x100, msg := { off := 64, len := 3 } })
      (fun t => t.status == 0x141 && t.finfo == 0x1F000000) = true := by decide

/-! ### PA unit -/

/-- V-PA-1. -/
theorem test_paKey : after (exec .paKey (golden 0 [])) (fun t => t.limbs == (goldenAcc 0).limbs) = true := by decide

/-- V-FLT-4: a key of 33 bytes. -/
theorem test_paKey_size :
    after (exec .paKey { faultStart with key := { off := 0, len := 33 } })
      (fun t => t.status == 0x21 && t.finfo == 0x20000000) = true := by decide

/-- R143. -/
theorem test_paClr : after (exec .paClr (goldenAcc 5)) (fun t => t == goldenAcc 0) = true := by decide

/-- R144's example. -/
theorem test_paAddn :
    after (exec .paAddn (golden 0 [])) (fun t => t.acc == 0x0A927010CAF8B2BC2C6365130C11D06A8) = true := by decide

/-- V-FLT-5: a nonce of 17 bytes. -/
theorem test_paAddn_size :
    after (exec .paAddn { faultStart with non := { off := 32, len := 17 } })
      (fun t => t.status == 0x31 && t.finfo == 0x22000000) = true := by decide

/-- R145's example. -/
theorem test_paAddm :
    after (exec (.paAddm 0) { golden 0 (rising 16) with acc := 0x0A927010CAF8B2BC2C6365130C11D06A8 })
      (fun t => t.acc == 0x0B8350E18BA9534CACD3C5634C41F07A8) = true := by decide

/-- V-PA-11: the seventeenth stride wraps the accumulator. -/
theorem test_paAddm_wraps :
    after (exec (.paAddm 0) { withMessage 0 (List.replicate 16 0xff) with acc := 0xFFFFFFFFFFFFFFFFFFFFFFFFFFFFFFFF0 })
      (fun t => t.acc == 0x0FFFFFFFFFFFFFFFFFFFFFFFFFFFFFFEF) = true := by decide

/-- R148's example. -/
theorem test_paMulr :
    after (exec .paMulr (goldenAcc 0x0A927010CAF8B2BC2C6365130C11D06A8))
      (fun t => t.acc == 0x297586706C70C08156A6C25F04854E548) = true := by decide

/-- R149's example. -/
theorem test_paMuls :
    after (exec .paMuls (goldenAcc 0x297586706C70C08156A6C25F04854E548))
      (fun t => t.acc == 0xB2080B6886ED4C17988B815B0BB04BD48) = true := by decide

/-- R151's example. -/
theorem test_paTag :
    after (exec .paTag (goldenAcc 0x0C075CFE43AEA7E888E4149253D3C9548)) (fun t =>
      t.out.toList ==
        [0x48, 0x95, 0x3c, 0x3d, 0x25, 0x49, 0x41, 0x8e, 0x88, 0x7e, 0xea, 0x3a, 0xe4, 0xcf, 0x75, 0xc0] ++
        List.replicate 16 0 && t.status == 0x200) = true := by decide

/-- V-PA-7: "hello", the last stride padded. -/
theorem test_paAuth :
    after (exec .paAuth (golden 1 [0x68, 0x65, 0x6c, 0x6c, 0x6f])) (fun t =>
      t.out.toList ==
        [0x50, 0x64, 0x84, 0x12, 0x77, 0xc7, 0x39, 0xb8, 0x80, 0x3c, 0x57, 0x76, 0x34, 0xa8, 0x47, 0xbd] ++
        List.replicate 16 0 && t.acc == 0x7BD47A83476573C80B839C77712846450 && t.status == 0x200) = true := by decide

/-- V-FLT-7: the length check precedes the range check. -/
theorem test_paAuth_size :
    after (exec .paAuth { faultStart with key := { off := 240, len := 31 } }) (fun t => t.status == 0x21) = true := by
  decide

/-! ### The host's accesses -/

/-- 10_state.md R42: the byte at the lowest offset is the least significant. -/
theorem test_window_write :
    after (step (about fresh (.write 0x01000004 2 0x1234))) (fun t => t.mb == [(4, 0x34), (5, 0x12)]) = true := by decide

theorem test_window_read :
    after (step (about (withMessage 0 (rising 32)) (.read 0x01000003 4)))
      (fun t => t.reply == some 0x0000000006050403) = true := by decide

/-- 10_state.md R28: ACC2 holds bits 131:128. -/
theorem test_read_acc2 :
    after (step (about (goldenAcc 0xB2080B6886ED4C17988B815B0BB04BD48) (.read 0x0D0 8)))
      (fun t => t.reply == some 0xB) = true := by decide

/-- 10_state.md R31: bits 63:1 of a write to CTRL are ignored. -/
theorem test_write_ctrl :
    after (step (about fresh (.write 0x010 8 0xFFFFFFFFFFFFFFFF))) (fun t => t.ctrl == 1) = true := by decide

/-- 10_state.md R42, R44: an access of the wrong form and an access to an unmapped offset. -/
theorem test_refusals :
    step (about fresh (.write 0x010 4 1)) = .refused (.unsupportedAccess 0x010 4) ∧
    step (about fresh (.read 0x0D8 8)) = .refused (.unmappedOffset 0x0D8) := ⟨rfl, rfl⟩

/-- V-FLT-2. -/
theorem test_illegal_word :
    after (step (faultStart.withCommand 0x0000000110000000))
      (fun t => t.status == 0x11 && t.finfo == 0x0000000110000000) = true := by decide

/-- V-FLT-15: dropped while a fault is recorded. -/
theorem test_dropped :
    after (step (recorded.withCommand 0x0000000001000001)) (fun t => t == recorded) = true := by decide

/-! ### Witnesses: for each statement with hypotheses a state and operands that meet them all -/

/-- A command's outcome as `exec` gives it. -/
theorem next_of {i : Instr} {s : State} (p : State → Bool) (h : after (exec i s) p = true) :
    ∃ t, exec i s = .next t ∧ p t = true := of_after h

theorem witness_DecodeOfEncodedCommand : (Instr.paAddm 0xFFFFFF).wellFormed = true := by decide

theorem witness_EncodeOfDecodedWord : decode 0x0000000013FFFFFF = .command (.nhAbs 0xFFFFFF) := by decide

theorem witness_StepRunsDecodedCommand :
    (fresh.withCommand 0x0000000012000000).pending = [.write 0x000 8 0x0000000012000000] ∧
    decode 0x0000000012000000 = .command .nhRnd := by decide

/-- One word for each reason, the third the least that is illegal for its operand. -/
theorem witness_IllegalWordRaisesIllegalCommand :
    statusFault fresh.status = 0 ∧
    (fresh.withCommand 0x0000000100000000).pending = [.write 0x000 8 0x0000000100000000] ∧
    decode 0x0000000100000000 = .illegal .upperHalfNotZero ∧
    decode 0x0000000000000000 = .illegal .unassignedOpcode ∧
    decode 0x0000000010000001 = .illegal .operandNotZero := by decide

theorem witness_FaultedEngineDropsEveryOtherWord :
    statusFault recorded.status = 1 ∧
    (recorded.withCommand 0x0000000003000000).pending = [.write 0x000 8 0x0000000003000000] ∧
    (0x0000000003000000 : Word) ≠ 0x0000000001000000 ∧ (0x0000000003000000 : Word) ≠ 0x0000000002000000 := by decide

theorem witness_SequenceAfterFaultIsDropped :
    statusFault recorded.status = 1 ∧ ∀ i ∈ [Instr.paMuls, Instr.paTag], isSysCommand i = false := by decide

/-- PA.AUTH with both lengths wrong: the condition of the second cause holds too. -/
theorem witness_FirstConditionInOrderIsReported :
    ∃ t, statusFault fresh.status = 0 ∧ exec .paAuth fresh = .next t ∧ statusFault t.status = 1 ∧
      statusCause t.status = Cause.invalidKeySize.code ∧ faultCondition .paAuth .invalidKeySize fresh ∧
      faultCondition .paAuth .invalidNonceSize fresh := by
  obtain ⟨t, h, k⟩ := next_of (i := .paAuth) (s := fresh) (fun t => t.status == 0x21) (by decide)
  have k : t.status = 0x21 := by simpa using k
  exact ⟨t, by decide, h, by rw [k]; decide, by rw [k]; decide, by decide, by decide⟩

theorem witness_FaultingCommandChangesOnlyTheRecord :
    ∃ t, statusFault fresh.status = 0 ∧ exec .paAddn fresh = .next t ∧ statusFault t.status = 1 := by
  obtain ⟨t, h, k⟩ := next_of (i := .paAddn) (s := fresh) (fun t => statusFault t.status == 1) (by decide)
  exact ⟨t, by decide, h, by simpa using k⟩

/-- The two states differ in MB and in NS. -/
theorem witness_FaultConditionsIgnoreMbContents :
    ∃ t t', exec (.nhXor 0) (withMessage 0 (rising 32)) = .next t ∧
      exec (.nhXor 0) { withMessage 0 (List.replicate 32 7) with ns := { a := 1, b := 0, c := 0, d := 0 } } = .next t' ∧
      (withMessage 0 (rising 32)).status = (withMessage 0 (List.replicate 32 7)).status ∧
      (withMessage 0 (rising 32)).msg = (withMessage 0 (List.replicate 32 7)).msg ∧
      (withMessage 0 (rising 32)).mb ≠ (withMessage 0 (List.replicate 32 7)).mb := by
  obtain ⟨t, h, _⟩ := next_of (i := .nhXor 0) (s := withMessage 0 (rising 32)) (fun _ => true) (by decide)
  obtain ⟨t', h', _⟩ := next_of (i := .nhXor 0)
    (s := { withMessage 0 (List.replicate 32 7) with ns := { a := 1, b := 0, c := 0, d := 0 } }) (fun _ => true)
    (by decide)
  exact ⟨t, t', h, h', by decide, by decide, by decide⟩

/-- Lengths 31 and 33, and 2^32 + 32; the second clause's premises on the first of them. -/
theorem witness_WrongKeyLengthFaults :
    statusFault fresh.status = 0 ∧ (31 : Word) ≠ 32 ∧ (33 : Word) ≠ 32 ∧ (0x100000020 : Word) ≠ 32 ∧
    ∃ t, exec .paKey { faultStart with key := { off := 0, len := 31 } } = .next t ∧ statusFault t.status = 1 ∧
      statusCause t.status = 2 := by
  obtain ⟨t, h, k⟩ := next_of (i := .paKey) (s := { faultStart with key := { off := 0, len := 31 } })
    (fun t => t.status == 0x21) (by decide)
  have k : t.status = 0x21 := by simpa using k
  exact ⟨by decide, by decide, by decide, by decide, t, h, by rw [k]; decide, by rw [k]; decide⟩

/-- Lengths 15 and 17, for PA.ADDN and for PA.AUTH with a key of length 32. -/
theorem witness_WrongNonceLengthFaults :
    statusFault faultStart.status = 0 ∧ faultStart.key.len = 32 ∧ (15 : Word) ≠ 16 ∧ (17 : Word) ≠ 16 ∧
    ∃ t, exec .paAuth { faultStart with non := { off := 32, len := 15 } } = .next t ∧ statusFault t.status = 1 ∧
      statusCause t.status = 3 := by
  obtain ⟨t, h, k⟩ := next_of (i := .paAuth) (s := { faultStart with non := { off := 32, len := 15 } })
    (fun t => t.status == 0x31) (by decide)
  have k : t.status = 0x31 := by simpa using k
  exact ⟨by decide, by decide, by decide, by decide, t, h, by rw [k]; decide, by rw [k]; decide⟩

/-- The last clause's premises. -/
theorem witness_ClrfClearsTheRecordOnly :
    statusFault fresh.status = 0 ∧ statusCause fresh.status = 0 ∧ fresh.finfo = 0 := by decide

/-- One step out of the faulted state for each way. -/
theorem witness_WaysOutOfTheFaultedState :
    statusFault recorded.status = 1 ∧
    after (step (recorded.withCommand 0x0000000001000000)) (fun t => statusFault t.status == 0) = true ∧
    after (step (recorded.withCommand 0x0000000002000000)) (fun t => statusFault t.status == 0) = true ∧
    after (step (about recorded .hardReset)) (fun t => statusFault t.status == 0) = true := by decide

theorem witness_HardResetZeroesRegistersAndForgetsMb :
    (about recorded .hardReset).pending = .hardReset :: [] := by decide

/-- The premise of NhInitLoadsTheConstants, NhRndAppliesOneRound, NhOutEmitsTheState, PaClrClearsTheAccumulator,
PaMulrMultipliesByR, PaMulsMultipliesByS and PaTagEmitsTheTag. -/
theorem witness_no_fault_recorded : statusFault fresh.status = 0 ∧ statusFault (goldenAcc 1).status = 0 := by decide

/-- Each clause of NhXorOutcomes and NhAbsOutcomes at a boundary: one byte out of range, in range to the last byte, one
byte too few, just enough, and one byte too few with ZPAD = 1. -/
theorem witness_NhXorOutcomes_NhAbsOutcomes :
    statusFault faultStart.status = 0 ∧ (0xFFFFFF < 2 ^ 24) ∧
    outOfRange { faultStart with msg := { off := 225, len := 32 } } { off := 225, len := 32 } ∧
    ¬ outOfRange { faultStart with msg := { off := 224, len := 32 } } { off := 224, len := 32 } ∧
    (¬ outOfRange (withMessage 0 (rising 31)) (withMessage 0 (rising 31)).msg ∧
      (withMessage 0 (rising 31)).msg.len.toNat < 0 + 32 ∧ ctrlZpad (withMessage 0 (rising 31)).ctrl = 0) ∧
    0 + 32 ≤ (withMessage 0 (rising 32)).msg.len.toNat ∧ ctrlZpad (withMessage 1 (rising 31)).ctrl = 1 := by decide

theorem witness_NhAbsIsXorAndFourRounds :
    ∃ t, exec (.nhAbs 0) (withMessage 0 (rising 32)) = .next t ∧ statusFault t.status = 0 := by
  obtain ⟨t, h, k⟩ := next_of (i := .nhAbs 0) (s := withMessage 0 (rising 32)) (fun t => statusFault t.status == 0)
    (by decide)
  exact ⟨t, h, by simpa using k⟩

theorem witness_NhXorTwiceRestores :
    ∃ t, exec (.nhXor 1) (withMessage 1 (rising 32)) = .next t ∧ statusFault t.status = 0 := by
  obtain ⟨t, h, k⟩ := next_of (i := .nhXor 1) (s := withMessage 1 (rising 32)) (fun t => statusFault t.status == 0)
    (by decide)
  exact ⟨t, h, by simpa using k⟩

/-- Each clause: out of range by one; 33 bytes with ZPAD 0; 32 bytes with ZPAD 0; 33 bytes with ZPAD 1. -/
theorem witness_NhDigestOutcomes :
    statusFault faultStart.status = 0 ∧
    outOfRange { faultStart with msg := { off := 257, len := 0 } } { off := 257, len := 0 } ∧
    ¬ outOfRange { faultStart with msg := { off := 256, len := 0 } } { off := 256, len := 0 } ∧
    (¬ outOfRange (withMessage 0 (rising 33)) (withMessage 0 (rising 33)).msg ∧
      (withMessage 0 (rising 33)).msg.len.toNat % 32 ≠ 0 ∧ ctrlZpad (withMessage 0 (rising 33)).ctrl = 0) ∧
    (withMessage 0 (rising 32)).msg.len.toNat % 32 = 0 ∧ ctrlZpad (withMessage 1 (rising 33)).ctrl = 1 := by decide

theorem digest_runs {ctrl : Word} {bytes : List Byte}
    (h : after (exec .nhDigest (withMessage ctrl bytes)) (fun t => statusFault t.status == 0) = true) :
    ∃ t, exec .nhDigest (withMessage ctrl bytes) = .next t ∧ statusFault t.status = 0 := by
  obtain ⟨t, e, k⟩ := of_after h
  exact ⟨t, e, by simpa using k⟩

theorem witness_NhDigestEqualsItsPrimitives :
    (withMessage 1 (rising 33)).params.mbCap ≤ 2 ^ 24 ∧
    ∃ t, exec .nhDigest (withMessage 1 (rising 33)) = .next t ∧ statusFault t.status = 0 :=
  ⟨by decide, digest_runs (by decide)⟩

/-- The same three bytes at address 0 and at address 8. -/
theorem witness_DigestDependsOnTheMessageAlone :
    (∃ t, exec .nhDigest (withMessage 1 (rising 3)) = .next t ∧ statusFault t.status = 0) ∧
    (after (exec .nhDigest { fresh with
        ctrl := 1, msg := { off := 8, len := 3 }, mb := image 8 (rising 3), acc := 1 })
      (fun t => statusFault t.status == 0) = true) ∧
    (∀ k, k < 3 → State.mbByte { fresh with mb := image 8 (rising 3) } (8 + k) =
      (withMessage 1 (rising 3)).mbByte (0 + k)) :=
  ⟨digest_runs (by decide), by decide, by decide⟩

/-- V-NH-17's pair: three bytes, and the same followed by 28 zero bytes. -/
theorem witness_ZeroBytesInTheTailWindowDoNotCount :
    (∃ t, exec .nhDigest (withMessage 1 [0x61, 0x62, 0x63]) = .next t ∧ statusFault t.status = 0) ∧
    (∃ t, exec .nhDigest (withMessage 1 ([0x61, 0x62, 0x63] ++ List.replicate 28 0)) = .next t ∧
      statusFault t.status = 0) ∧
    31 / 32 = 3 / 32 ∧
    (∀ k, k < 3 → (withMessage 1 ([0x61, 0x62, 0x63] ++ List.replicate 28 0)).mbByte (0 + k) =
      (withMessage 1 [0x61, 0x62, 0x63]).mbByte (0 + k)) ∧
    (∀ k, k < 31 → 3 ≤ k → (withMessage 1 ([0x61, 0x62, 0x63] ++ List.replicate 28 0)).mbByte (0 + k) = 0) :=
  ⟨digest_runs (by decide), digest_runs (by decide), by decide, by decide, by decide⟩

/-- Each clause: length 33; out of range by one; in range to the last byte. -/
theorem witness_PaKeyOutcomes :
    statusFault faultStart.status = 0 ∧ (33 : Word) ≠ 32 ∧
    outOfRange { faultStart with key := { off := 225, len := 32 } } { off := 225, len := 32 } ∧
    ¬ outOfRange { faultStart with key := { off := 224, len := 32 } } { off := 224, len := 32 } := by decide

/-- Each clause: length 15; out of range by one; in range to the last byte. -/
theorem witness_PaAddnOutcomes :
    statusFault faultStart.status = 0 ∧ (15 : Word) ≠ 16 ∧
    outOfRange { faultStart with non := { off := 241, len := 16 } } { off := 241, len := 16 } ∧
    ¬ outOfRange { faultStart with non := { off := 240, len := 16 } } { off := 240, len := 16 } := by decide

/-- Each clause at a boundary: out of range by one, one byte too few, just enough, too few with ZPAD = 1. -/
theorem witness_PaAddmOutcomes :
    statusFault faultStart.status = 0 ∧ 0xFFFFFF < 2 ^ 24 ∧
    outOfRange { faultStart with msg := { off := 241, len := 16 } } { off := 241, len := 16 } ∧
    (¬ outOfRange (withMessage 0 (rising 15)) (withMessage 0 (rising 15)).msg ∧
      (withMessage 0 (rising 15)).msg.len.toNat < 0 + 16 ∧ ctrlZpad (withMessage 0 (rising 15)).ctrl = 0) ∧
    0 + 16 ≤ (withMessage 0 (rising 16)).msg.len.toNat ∧ ctrlZpad (withMessage 1 (rising 15)).ctrl = 1 := by decide

theorem witness_AddsCommute :
    ∃ t, execAll [.paAddn, .paAddm 0] (golden 0 (rising 16)) = .next t ∧ statusFault t.status = 0 := by
  obtain ⟨t, h, k⟩ := of_after (r := execAll [.paAddn, .paAddm 0] (golden 0 (rising 16)))
    (p := fun t => statusFault t.status == 0) (by decide)
  exact ⟨t, h, by simpa using k⟩

/-- Each clause: a wrong key length, a wrong nonce length, each descriptor out of range by one, 15 bytes with ZPAD 0, 16
bytes with ZPAD 0, 15 bytes with ZPAD 1. -/
theorem witness_PaAuthOutcomes :
    statusFault faultStart.status = 0 ∧ (31 : Word) ≠ 32 ∧ (faultStart.key.len = 32 ∧ (17 : Word) ≠ 16) ∧
    faultStart.non.len = 16 ∧
    outOfRange faultStart { off := 225, len := 32 } ∧ outOfRange faultStart { off := 241, len := 16 } ∧
    outOfRange faultStart { off := 257, len := 0 } ∧
    (¬ outOfRange faultStart { off := 224, len := 32 } ∧ ¬ outOfRange faultStart { off := 240, len := 16 } ∧
      ¬ outOfRange faultStart { off := 241, len := 15 } ∧ (15 : Word).toNat % 16 ≠ 0 ∧
      ctrlZpad faultStart.ctrl = 0) ∧
    (golden 0 (rising 16)).msg.len.toNat % 16 = 0 ∧ ctrlZpad (golden 1 (rising 15)).ctrl = 1 := by decide

theorem auth_runs {s : State} (h : after (exec .paAuth s) (fun t => statusFault t.status == 0) = true) :
    ∃ t, exec .paAuth s = .next t ∧ statusFault t.status = 0 := by
  obtain ⟨t, e, k⟩ := of_after h
  exact ⟨t, e, by simpa using k⟩

/-- The premises of PaAuthEqualsItsPrimitives and TagIsComputableModuloTwoToThe128. -/
theorem witness_PaAuthEqualsItsPrimitives :
    (golden 1 (rising 17)).params.mbCap ≤ 2 ^ 24 ∧ statusFault (golden 1 (rising 17)).status = 0 ∧
    ∃ t, exec .paAuth (golden 1 (rising 17)) = .next t ∧ statusFault t.status = 0 :=
  ⟨by decide, by decide, auth_runs (by decide)⟩

/-- V-PA-13: the nonce and a message stride change places. -/
theorem witness_TagDependsOnTheStrideSumOnly :
    (∃ t, exec .paAuth (golden 0 (rising 16)) = .next t ∧ statusFault t.status = 0) ∧
    (∃ t, exec .paAuth (withNonce 0 (rising 16) goldenNonce) = .next t ∧ statusFault t.status = 0) ∧
    (∀ k, k < 32 → (withNonce 0 (rising 16) goldenNonce).mbByte (0 + k) = (golden 0 (rising 16)).mbByte (0 + k)) ∧
    strideSum (withNonce 0 (rising 16) goldenNonce) 1 = strideSum (golden 0 (rising 16)) 1 :=
  ⟨auth_runs (by decide), auth_runs (by decide), by decide, by decide⟩

/-- Two legal states, the second with a fault recorded and a digest in OUT, each with an access the step performs. -/
theorem witness_StepKeepsLegalStates :
    State.Inv (withMessage 1 (rising 3)) ∧ State.Inv { recorded with status := 0x141, mb := [(255, 7)] } ∧
    after (step ((withMessage 1 (rising 3)).withCommand 0x1F000000)) (fun _ => true) = true ∧
    after (step (recorded.withCommand 0x01000000)) (fun _ => true) = true := by
  refine ⟨by decide, by decide, by decide, by decide⟩

/-- The premise of StepKeepsTheParameters and, for a command, of CommandsLeaveMbCtrlAndDescriptors and
WritersOfEachWorkingRegister. -/
theorem witness_next_states :
    after (step (about fresh .hardReset)) (fun _ => true) = true ∧
    after (exec .paAuth (golden 0 [])) (fun t => t.acc != 0 && t.limbs != (golden 0 []).limbs && t.out != fresh.out) =
      true ∧
    after (exec .nhInit fresh) (fun t => t.ns != fresh.ns) = true := by decide

theorem witness_UnitsShareNoWorkingState :
    isNhCommand .nhDigest = true ∧ after (exec .nhDigest (withMessage 1 (rising 3))) (fun _ => true) = true ∧
    isPaCommand .paAuth = true ∧ after (exec .paAuth (golden 0 [])) (fun _ => true) = true := by decide

/-- The first register and the last of the table. -/
theorem witness_RegisterReadsReturnTheRegister :
    (about (goldenAcc 7) (.read 0x000 8)).pending = .read 0x000 8 :: [] ∧
    after (step (about (goldenAcc 7) (.read 0x000 8))) (fun t => t.reply == some 0) = true ∧
    after (step (about (goldenAcc 7) (.read 0x0C0 8))) (fun t => t.reply == some 7) = true ∧
    after (step (about { fresh with out := Vector.replicate 32 1 } (.read 0x118 8)))
      (fun t => t.reply == some 0x0101010101010101) = true := by decide

/-- A stored write, a partly ignored one and an ignored one. -/
theorem witness_RegisterWritesFollowTheAccessRights :
    (about fresh (.write 0x098 8 5)).pending = .write 0x098 8 5 :: [] ∧
    after (step (about fresh (.write 0x098 8 5))) (fun t => t == { fresh with ns := { fresh.ns with d := 5 } }) = true ∧
    after (step (about fresh (.write 0x010 8 6))) (fun t => t == fresh) = true ∧
    after (step (about fresh (.write 0x118 8 5))) (fun t => t == fresh) = true := by decide

theorem witness_HostReadChangesNothing :
    (about recorded (.read 0x008 8)).pending = .read 0x008 8 :: [] ∧
    after (step (about recorded (.read 0x008 8))) (fun t => t == { recorded with reply := some 0x41 }) = true := by
  decide

/-- The last eight bytes of MB. -/
theorem witness_WindowWriteStoresItsBytesOnly :
    (about fresh (.write (0x01000000 + 248) 8 1)).pending = .write (0x01000000 + 248) 8 1 :: [] ∧
    8 ∈ [1, 2, 4, 8] ∧ 248 + 8 ≤ fresh.params.mbCap := by decide

theorem witness_WindowReadReturnsItsBytes :
    (about fresh (.read (0x01000000 + 255) 1)).pending = .read (0x01000000 + 255) 1 :: [] ∧
    1 ∈ [1, 2, 4, 8] ∧ 255 + 1 ≤ fresh.params.mbCap := by decide

theorem witness_CommandReadsTheWordTheHostWrote :
    (about fresh (.write (0x01000000 + 248) 8 1)).pending = .write (0x01000000 + 248) 8 1 :: [] ∧
    after (step (about fresh (.write (0x01000000 + 248) 8 1))) (fun _ => true) = true ∧
    (240 : Word).toNat + 8 = 248 ∧ 8 + 8 ≤ (16 : Word).toNat := by decide

/-- The last byte of OUT, and the last eight. -/
theorem witness_OutIsReadableAtEveryWidth :
    (about fresh (.read (0x100 + 31) 1)).pending = .read (0x100 + 31) 1 :: [] ∧ 1 ∈ [1, 2, 4, 8] ∧ 31 + 1 ≤ 32 ∧
    8 ∈ [1, 2, 4, 8] ∧ 24 + 8 ≤ 32 := by decide

/-- A hole in the block, its last offset, the first and last offset before the window, and a word that ends one byte
past the capacity. -/
theorem witness_UnmappedOffsetsAreRefused :
    step (about fresh (.write 0x050 8 0)) = .refused (.unmappedOffset 0x050) ∧
    step (about fresh (.read 0xFF8 8)) = .refused (.unmappedOffset 0xFF8) ∧
    step (about fresh (.read 0x1000 8)) = .refused (.unmappedOffset 0x1000) ∧
    step (about fresh (.write 0xFFFFFF 1 0)) = .refused (.unmappedOffset 0xFFFFFF) ∧
    step (about fresh (.write (0x01000000 + 249) 8 0)) = .refused (.unmappedOffset (0x01000000 + 249)) :=
  ⟨rfl, rfl, rfl, rfl, rfl⟩

/-- A read of OUT that crosses its end, a narrow read before it, a narrow write of it, and a window width of 3. -/
theorem witness_UnsupportedAccessesAreRefused :
    step (about fresh (.read 0x119 8)) = .refused (.unsupportedAccess 0x119 8) ∧
    step (about fresh (.read 0x0FF 1)) = .refused (.unsupportedAccess 0x0FF 1) ∧
    step (about fresh (.write 0x100 4 0)) = .refused (.unsupportedAccess 0x100 4) ∧
    step (about fresh (.write 0x01000000 3 0)) = .refused (.unsupportedAccess 0x01000000 3) := ⟨rfl, rfl, rfl, rfl⟩

end Sys2Proof.Tests
end

section
/-! SUPPORT. The proofs for the NH unit (40_nh_unit.md): what a recorded fault and an emitted digest are in the terms of
Safety.lean, what the check phases of the message commands find, the digest's state as a fold, and the six statements. -/

namespace Sys2Proof.Machine

/-! ### The words of the commands with an offset -/

theorem encode_nhXor (off : Nat) : encode (.nhXor off) = BitVec.ofNat 64 (0x0000000011000000 + off) := by
  rw [encode, Instr.opcode, Instr.offsetField, show (0x11 : Nat) <<< 24 = 0x11000000 from rfl]

theorem encode_nhAbs (off : Nat) : encode (.nhAbs off) = BitVec.ofNat 64 (0x0000000013000000 + off) := by
  rw [encode, Instr.opcode, Instr.offsetField, show (0x13 : Nat) <<< 24 = 0x13000000 from rfl]

/-! ### The two outcomes of a command while no fault is recorded -/

theorem raise_faultRecorded (w : Word) (c : Cause) (s : State) : FaultRecorded c.code w s (raise w c s) := by
  have code_lt : c.code < 16 := by cases c <;> decide
  simp only [FaultRecorded, raise_status, statusFault_putFault, statusCause_putFault, statusOkind_putFault,
    reservedLow_putFault, reservedHigh_putFault, Nat.mod_eq_of_lt code_lt, true_and]
  rfl

/-- A command whose check finds a fault records it (60_exceptions.md R195). -/
theorem exec_records {i : Instr} {c : Cause} {s : State} (hi : isSysCommand i = false)
    (hs : statusFault s.status = 0) (hc : checkOf i s = some c) :
    ∃ t, exec i s = .next t ∧ FaultRecorded c.code (encode i) s t := by
  refine ⟨raise (encode i) c s, ?_, raise_faultRecorded _ _ _⟩
  rw [exec_eq_execute hi, hc, execute_fault _ _ _ ((faulted_eq_false_iff s).mpr hs)]

/-- A command whose check finds nothing runs in full (60_exceptions.md R199). -/
theorem exec_runs {i : Instr} {s : State} (hi : isSysCommand i = false)
    (hs : statusFault s.status = 0) (hc : checkOf i s = none) : exec i s = .next (effectOf i s) := by
  rw [exec_eq_execute hi, hc, execute_run _ _ ((faulted_eq_false_iff s).mpr hs)]

/-! ### The check phases of the commands that read the message -/

theorem messageCheck_of_outOfRange {s : State} (off n : Nat) (h : outOfRange s s.msg) :
    messageCheck s off n = some .badDescriptor := by
  simp [messageCheck, inRange_eq, h]

theorem messageCheck_of_pastEnd {s : State} {off n : Nat} (hr : ¬ outOfRange s s.msg)
    (hl : s.msg.len.toNat < off + n) (hz : ctrlZpad s.ctrl = 0) : messageCheck s off n = some .bufferUnderflow := by
  simp [messageCheck, inRange_eq, hr, State.underflows, hl, (zpad_eq_false_iff s).mpr hz]

theorem messageCheck_eq_none {s : State} {off n : Nat} (hr : ¬ outOfRange s s.msg)
    (h : off + n ≤ s.msg.len.toNat ∨ ctrlZpad s.ctrl = 1) : messageCheck s off n = none := by
  have enough : s.underflows s.msg off n = false := by
    rcases h with hl | hz
    · simp [State.underflows, not_lt.mpr hl]
    · simp [State.underflows, (zpad_eq_true_iff s).mpr hz]
  simp [messageCheck, inRange_eq, hr, enough]

/-- The outcomes of every command whose check is the message check, in the order of 60_exceptions.md R203. -/
theorem messageCommand_outcomes {i : Instr} {off n : Nat} {s : State} (hi : isSysCommand i = false)
    (hc : checkOf i s = messageCheck s off n) (hs : statusFault s.status = 0) :
    (outOfRange s s.msg → ∃ t, exec i s = .next t ∧ FaultRecorded 5 (encode i) s t) ∧
    (¬ outOfRange s s.msg → s.msg.len.toNat < off + n → ctrlZpad s.ctrl = 0 →
      ∃ t, exec i s = .next t ∧ FaultRecorded 4 (encode i) s t) ∧
    (¬ outOfRange s s.msg → (off + n ≤ s.msg.len.toNat ∨ ctrlZpad s.ctrl = 1) →
      exec i s = .next (effectOf i s)) := by
  refine ⟨fun hr => ?_, fun hr hl hz => ?_, fun hr h => ?_⟩
  · exact exec_records hi hs (hc.trans (messageCheck_of_outOfRange off n hr))
  · exact exec_records hi hs (hc.trans (messageCheck_of_pastEnd hr hl hz))
  · exact exec_runs hi hs (hc.trans (messageCheck_eq_none hr h))

theorem digestCheck_of_outOfRange {s : State} (h : outOfRange s s.msg) : digestCheck s = some .badDescriptor := by
  simp [digestCheck, inRange_eq, h]

theorem digestCheck_of_partialTail {s : State} (hr : ¬ outOfRange s s.msg) (hl : s.msg.len.toNat % 32 ≠ 0)
    (hz : ctrlZpad s.ctrl = 0) : digestCheck s = some .bufferUnderflow := by
  simp [digestCheck, inRange_eq, hr, hl, (zpad_eq_false_iff s).mpr hz]

theorem digestCheck_eq_none {s : State} (hr : ¬ outOfRange s s.msg)
    (h : s.msg.len.toNat % 32 = 0 ∨ ctrlZpad s.ctrl = 1) : digestCheck s = none := by
  have enough : (decide (s.msg.len.toNat % 32 ≠ 0) && !s.zpad) = false := by
    rcases h with hl | hz
    · simp [hl]
    · simp [(zpad_eq_true_iff s).mpr hz]
  simp only [digestCheck, inRange_eq, hr, decide_false, Bool.not_false, Bool.not_true, enough, firstFault_false,
    firstFault_nil]

/-! ### The emitted digest -/

theorem memWrite_word_getElem (a : Nat) (w : Word) (out : Vector Byte 32) {k : Nat} (h : k < 32) :
    (memWrite a (bytesLE64 w) out)[k] = if a ≤ k ∧ k < a + 8 then byteOf w (k - a) else out[k] := by
  rw [memWrite_getElem _ _ _ _ h, bytesLE64_length]
  split
  · rw [bytesLE64_getD _ (by omega)]
  · rfl

/-- Every byte of OUT is written by exactly one of the four words (40_nh_unit.md R116). -/
theorem digestOut_getElem (s : State) {k : Nat} (h : k < 32) : (digestOut s)[k] = digestByte s.ns k := by
  simp only [digestOut, memWrite_word_getElem _ _ _ h, digestByte]
  rcases (by omega : k < 8 ∨ (8 ≤ k ∧ k < 16) ∨ (16 ≤ k ∧ k < 24) ∨ 24 ≤ k) with hk | hk | hk | hk
  · rw [if_neg (by omega), if_neg (by omega), if_neg (by omega), if_pos (by omega), if_pos hk, byteOf,
      show k % 8 = k - 0 by omega]
  · rw [if_neg (by omega), if_neg (by omega), if_pos (by omega), if_neg (by omega), if_pos hk.2, byteOf,
      show k % 8 = k - 8 by omega]
  · rw [if_neg (by omega), if_pos (by omega), if_neg (by omega), if_neg (by omega), if_pos hk.2, byteOf,
      show k % 8 = k - 16 by omega]
  · rw [if_pos (by omega), if_neg (by omega), if_neg (by omega), if_neg (by omega), byteOf,
      show k % 8 = k - 24 by omega]

theorem emitDigest_okindBecomes (s : State) : OkindBecomes 1 s (emitDigest s) := by
  simp [OkindBecomes, okindDigest]

/-- The sum of the first n base-256 digits of x, each at its place. -/
theorem sum_bytes_eq_mod (x n : Nat) :
    ∑ j ∈ Finset.range n, x / 2 ^ (8 * j) % 2 ^ 8 * 2 ^ (8 * j) = x % 2 ^ (8 * n) := by
  induction n with
  | zero => simp [Nat.mod_one]
  | succ n ih =>
    rw [Finset.sum_range_succ, ih, Nat.mul_succ, pow_add, Nat.mod_mul, mul_comm (_ % _)]

/-- Eight bytes of OUT that are the bytes of `w` read back as `w`. -/
theorem outSum_eq_of_bytes {s : State} {k : Nat} {w : Word}
    (h : ∀ j, j < 8 → s.out.toList.getD (k + j) 0 = byteOf w j) : outSum s k 8 = w := by
  have sum_eq : ∑ j ∈ Finset.range 8, (s.out.toList.getD (k + j) 0).toNat * 2 ^ (8 * j) = w.toNat := by
    calc _ = ∑ j ∈ Finset.range 8, w.toNat / 2 ^ (8 * j) % 2 ^ 8 * 2 ^ (8 * j) :=
          Finset.sum_congr rfl fun j hj => by rw [h j (Finset.mem_range.mp hj), byteOf, BitVec.toNat_ofNat]
      _ = w.toNat % 2 ^ (8 * 8) := sum_bytes_eq_mod _ _
      _ = w.toNat := Nat.mod_eq_of_lt w.isLt
  rw [outSum, sum_eq, BitVec.ofNat_toNat, BitVec.setWidth_eq]

theorem emitDigest_out_getD (s : State) {k : Nat} (h : k < 32) :
    (emitDigest s).out.toList.getD k 0 = digestByte s.ns k := by
  rw [← digestOut_getElem s h]
  simp [List.getD_eq_getElem?_getD, h]

/-- `OUTW[i] = NS[i]` after the emit (40_nh_unit.md R116). -/
theorem outSum_emitDigest (s : State) :
    outSum (emitDigest s) 0 8 = s.ns.a ∧ outSum (emitDigest s) 8 8 = s.ns.b ∧
    outSum (emitDigest s) 16 8 = s.ns.c ∧ outSum (emitDigest s) 24 8 = s.ns.d := by
  refine ⟨outSum_eq_of_bytes fun j hj => ?_, outSum_eq_of_bytes fun j hj => ?_, outSum_eq_of_bytes fun j hj => ?_,
    outSum_eq_of_bytes fun j hj => ?_⟩ <;> rw [emitDigest_out_getD s (by omega), digestByte, byteOf]
  · rw [if_pos (by omega), show (0 + j) % 8 = j by omega]
  · rw [if_neg (by omega), if_pos (by omega), show (8 + j) % 8 = j by omega]
  · rw [if_neg (by omega), if_neg (by omega), if_pos (by omega), show (16 + j) % 8 = j by omega]
  · rw [if_neg (by omega), if_neg (by omega), if_neg (by omega), show (24 + j) % 8 = j by omega]

/-! ### The state of the digest -/

/-- The complete blocks absorbed in order, as a fold over their indices (40_nh_unit.md R117). -/
theorem nhAbsorbed_eq_foldl (s : State) (k : Nat) :
    s.nhAbsorbed k =
      (List.range k).foldl
        (fun x i => roundSpec (roundSpec (roundSpec (roundSpec (xorMessage s (32 * i) x)))))
        (nhConstants s.params) := by
  induction k with
  | zero => rfl
  | succ k ih => rw [State.nhAbsorbed, absorbBlock_nhBlock, ih, List.range_succ, List.foldl_concat]

theorem nhDigestState_eq (s : State) : s.nhDigestState = digestSpec s := by
  simp only [State.nhDigestState, digestSpec, xorBlock_nhBlock, nhAbsorbed_eq_foldl, nhConstants]

/-! ### The statements -/

/-- Settles O21: NH.INIT has no check, and its effect is the constants. -/
theorem nhInitLoadsTheConstants : Obligations.NhInitLoadsTheConstants :=
  ⟨rfl, fun _ hs => exec_runs rfl hs rfl⟩

/-- Settles O22: NH.RND has no check, and the ten lines of the round are its single-assignment form. -/
theorem nhRndAppliesOneRound : Obligations.NhRndAppliesOneRound := by
  refine ⟨rfl, fun s hs => ?_⟩
  rw [exec_runs rfl hs rfl, effectOf, nhRound_eq]

/-- Settles O24: the three cases of the message check, and the block as the four words of the message. -/
theorem nhXorOutcomes : Obligations.NhXorOutcomes := by
  refine fun off s _ hs => ⟨encode_nhXor off, ?_⟩
  have outcomes := messageCommand_outcomes (i := .nhXor off) rfl rfl hs
  rwa [effectOf, xorBlock_nhBlock] at outcomes

/-- Settles O25: the three cases of the message check, and the absorbed block as the xor and four rounds. -/
theorem nhAbsOutcomes : Obligations.NhAbsOutcomes := by
  refine fun off s _ hs => ⟨encode_nhAbs off, ?_⟩
  have outcomes := messageCommand_outcomes (i := .nhAbs off) rfl rfl hs
  rwa [effectOf, absorbBlock_nhBlock] at outcomes

/-- Settles O28: NH.OUT has no check, and its effect is the emit, byte by byte and word by word. -/
theorem nhOutEmitsTheState : Obligations.NhOutEmitsTheState :=
  ⟨rfl, fun s hs => ⟨emitDigest s, exec_runs rfl hs rfl, rfl, fun k => digestOut_getElem s k.isLt,
    emitDigest_okindBecomes s, outSum_emitDigest s⟩⟩

/-- Settles O29: the three cases of the digest's check, and the emit of the state that the fold over the blocks gives. -/
theorem nhDigestOutcomes : Obligations.NhDigestOutcomes := by
  refine ⟨rfl, fun s hs => ⟨fun hr => ?_, fun hr hl hz => ?_, fun hr h => ?_⟩⟩
  · exact exec_records (i := .nhDigest) rfl hs (digestCheck_of_outOfRange hr)
  · exact exec_records (i := .nhDigest) rfl hs (digestCheck_of_partialTail hr hl hz)
  · have run := exec_runs (i := .nhDigest) rfl hs (digestCheck_eq_none hr h)
    rw [effectOf, nhDigestState_eq] at run
    exact ⟨_, run, rfl, fun k => digestOut_getElem { s with ns := digestSpec s } k.isLt,
      emitDigest_okindBecomes { s with ns := digestSpec s }⟩

end Sys2Proof.Machine
end

section
/-! SUPPORT. The proofs for the PA unit (41_pa_unit.md): what the check phases of its commands find, the accumulator's
updates as the formulas of Safety.lean, the bytes of an emitted tag, and the eight statements. -/

namespace Sys2Proof.Machine

theorem encode_paAddm (off : Nat) : encode (.paAddm off) = BitVec.ofNat 64 (0x0000000023000000 + off) := by
  rw [encode, Instr.opcode, Instr.offsetField, show (0x23 : Nat) <<< 24 = 0x23000000 from rfl]

/-! ### The check phases of the commands that compare a length -/

theorem inRange_of_outOfRange {s : State} {d : Descriptor} (h : outOfRange s d) : s.inRange d = false := by
  rw [inRange_eq, decide_eq_true h, Bool.not_true]

theorem inRange_of_not_outOfRange {s : State} {d : Descriptor} (h : ¬ outOfRange s d) : s.inRange d = true := by
  rw [inRange_eq, decide_eq_false h, Bool.not_false]

/-- The comparison of a length over the naturals is that of the 64-bit values (60_exceptions.md R193, R194). -/
theorem lengthDiffers_eq (d : Descriptor) (n : Word) : decide (d.len.toNat ≠ n.toNat) = !decide (d.len = n) := by
  rw [← decide_not]
  exact decide_eq_decide.mpr BitVec.toNat_inj.not

/-- The outcomes of a command that wants its descriptor `d` to have exactly `n` bytes, and to be in range
(41_pa_unit.md R142, R144). -/
theorem sizedCommand_outcomes {i : Instr} {c : Cause} {d : Descriptor} {n : Word} {s : State}
    (hi : isSysCommand i = false)
    (hc : checkOf i s = firstFault [(decide (d.len.toNat ≠ n.toNat), c), (!s.inRange d, .badDescriptor)])
    (hs : statusFault s.status = 0) :
    (d.len ≠ n → ∃ t, exec i s = .next t ∧ FaultRecorded c.code (encode i) s t) ∧
    (d.len = n → outOfRange s d → ∃ t, exec i s = .next t ∧ FaultRecorded 5 (encode i) s t) ∧
    (d.len = n → ¬ outOfRange s d → exec i s = .next (effectOf i s)) := by
  rw [lengthDiffers_eq] at hc
  refine ⟨fun hl => ?_, fun hl hr => ?_, fun hl hr => ?_⟩
  · exact exec_records hi hs (by rw [hc, decide_eq_false hl, Bool.not_false, firstFault_true])
  · rw [decide_eq_true hl, inRange_of_outOfRange hr] at hc
    exact exec_records hi hs hc
  · rw [decide_eq_true hl, inRange_of_not_outOfRange hr] at hc
    exact exec_runs hi hs hc

theorem keySizeWrong_eq (s : State) : s.keySizeWrong = !decide (s.key.len = 32) := lengthDiffers_eq s.key 32

theorem nonceSizeWrong_eq (s : State) : s.nonceSizeWrong = !decide (s.non.len = 16) := lengthDiffers_eq s.non 16

theorem authCheck_of_keySize {s : State} (hk : s.key.len ≠ 32) : authCheck s = some .invalidKeySize := by
  rw [authCheck, keySizeWrong_eq, decide_eq_false hk, Bool.not_false, firstFault_true]

theorem authCheck_of_nonceSize {s : State} (hk : s.key.len = 32) (hn : s.non.len ≠ 16) :
    authCheck s = some .invalidNonceSize := by
  rw [authCheck, keySizeWrong_eq, decide_eq_true hk, Bool.not_true, firstFault_false, nonceSizeWrong_eq,
    decide_eq_false hn, Bool.not_false, firstFault_true]

/-- With both lengths right the first two entries of the check are passed over. -/
theorem authCheck_of_sizes {s : State} (hk : s.key.len = 32) (hn : s.non.len = 16) :
    authCheck s = firstFault
      [(!(s.inRange s.key && s.inRange s.non && s.inRange s.msg), .badDescriptor),
       (decide (s.msg.len.toNat % 16 ≠ 0) && !s.zpad, .bufferUnderflow)] := by
  simp only [authCheck, keySizeWrong_eq, hk, nonceSizeWrong_eq, hn, decide_true, Bool.not_true, firstFault_false]

theorem authCheck_of_outOfRange {s : State} (hk : s.key.len = 32) (hn : s.non.len = 16)
    (hr : outOfRange s s.key ∨ outOfRange s s.non ∨ outOfRange s s.msg) : authCheck s = some .badDescriptor := by
  have some_bad : (s.inRange s.key && s.inRange s.non && s.inRange s.msg) = false := by
    rcases hr with hr | hr | hr <;> simp only [inRange_of_outOfRange hr, Bool.false_and, Bool.and_false]
  rw [authCheck_of_sizes hk hn, some_bad, Bool.not_false, firstFault_true]

/-- With all three descriptors in range only the tail of the message is left to check. -/
theorem authCheck_of_inRange {s : State} (hk : s.key.len = 32) (hn : s.non.len = 16) (hrk : ¬ outOfRange s s.key)
    (hrn : ¬ outOfRange s s.non) (hrm : ¬ outOfRange s s.msg) :
    authCheck s = firstFault [(decide (s.msg.len.toNat % 16 ≠ 0) && !s.zpad, .bufferUnderflow)] := by
  have all_good : (s.inRange s.key && s.inRange s.non && s.inRange s.msg) = true := by
    rw [inRange_of_not_outOfRange hrk, inRange_of_not_outOfRange hrn, inRange_of_not_outOfRange hrm]
    rfl
  rw [authCheck_of_sizes hk hn, all_good, Bool.not_true, firstFault_false]

theorem partialStride_faults {s : State} (hl : s.msg.len.toNat % 16 ≠ 0) (hz : ctrlZpad s.ctrl = 0) :
    (decide (s.msg.len.toNat % 16 ≠ 0) && !s.zpad) = true := by
  simp [hl, (zpad_eq_false_iff s).mpr hz]

theorem partialStride_passes {s : State} (h : s.msg.len.toNat % 16 = 0 ∨ ctrlZpad s.ctrl = 1) :
    (decide (s.msg.len.toNat % 16 ≠ 0) && !s.zpad) = false := by
  rcases h with hl | hz
  · simp [hl]
  · simp [(zpad_eq_true_iff s).mpr hz]

/-! ### The accumulator -/

theorem addStride_bufRead (x : Acc) (s : State) (d : Descriptor) (k : Nat) :
    addStride x (s.bufRead d k 16) = BitVec.ofNat 132 ((x.toNat + bufStride s d k) % 2 ^ 132) := by
  rw [addStride, le128_bufRead, accModulus]

theorem mulredAcc_eq_ofNat (x : Acc) (h l : Word) :
    mulredAcc x h l = BitVec.ofNat 132 (mulredSpec x.toNat h.toNat l.toNat) := by
  rw [mulredAcc, mulred, accModulus, mulredSpec]

/-- The accumulation wraps at every stride, and is the sum of the strides modulo 2^132 (41_pa_unit.md R153). -/
theorem paAccumulated_toNat (s : State) (n : Nat) : (s.paAccumulated n).toNat = strideSum s n % 2 ^ 132 := by
  induction n with
  | zero =>
    rw [State.paAccumulated, addStride_toNat, State.nonceStride, le128_bufRead, strideSum, Finset.sum_range_zero,
      Nat.add_zero, show (0 : Acc).toNat = 0 from rfl, Nat.zero_add]
  | succ n ih =>
    rw [State.paAccumulated, addStride_toNat, State.messageStride, le128_bufRead, ih, Nat.mod_add_mod, strideSum,
      strideSum, Finset.sum_range_succ, Nat.add_assoc]

theorem authAcc_toNat (s : State) : (authAcc s).toNat = authSpec s := by
  simp only [authAcc, authSpec, mulredAcc_toNat, keyLimbs_eq, paAccumulated_toNat, strideCount]

theorem authAcc_eq_ofNat (s : State) : authAcc s = BitVec.ofNat 132 (authSpec s) := by
  rw [← authAcc_toNat, BitVec.ofNat_toNat, BitVec.setWidth_eq]

/-! ### The emitted tag -/

theorem accLow_eq_ofNat (x : Acc) : x.extractLsb' 0 64 = BitVec.ofNat 64 x.toNat := by
  rw [BitVec.extractLsb', Nat.shiftRight_zero]

theorem accMiddle_eq_ofNat (x : Acc) : x.extractLsb' 64 64 = BitVec.ofNat 64 (x.toNat / 2 ^ 64) := by
  rw [BitVec.extractLsb', Nat.shiftRight_eq_div_pow]

/-- The reduction modulo 2^64 leaves the eight low bytes of a natural as they are. -/
theorem byteOf_ofNat (x : Nat) {k : Nat} (h : k < 8) :
    byteOf (BitVec.ofNat 64 x) k = BitVec.ofNat 8 (x / 2 ^ (8 * k)) := by
  apply BitVec.eq_of_toNat_eq
  simp only [byteOf, BitVec.toNat_ofNat]
  have pow_split : 2 ^ 64 = 2 ^ (8 * k) * 2 ^ (64 - 8 * k) := by rw [← pow_add, show 8 * k + (64 - 8 * k) = 64 by omega]
  rw [pow_split, Nat.mod_mul_right_div_self, Nat.mod_mod_of_dvd _ (pow_dvd_pow 2 (by omega))]

theorem byteOf_zero (k : Nat) : byteOf 0 k = 0 := by simp [byteOf]

theorem tagByte_low (x : Nat) {k : Nat} (h : k < 8) : tagByte x k = byteOf (BitVec.ofNat 64 x) k := by
  rw [tagByte, if_pos (by omega), byteOf_ofNat x h]

theorem tagByte_middle (x : Nat) {k : Nat} (h : k < 8) :
    tagByte x (8 + k) = byteOf (BitVec.ofNat 64 (x / 2 ^ 64)) k := by
  rw [tagByte, if_pos (by omega), byteOf_ofNat _ h, Nat.div_div_eq_div_mul, ← pow_add,
    show 8 * (8 + k) = 64 + 8 * k by ring]

theorem tagByte_upper (x : Nat) {k : Nat} (h : 16 ≤ k) : tagByte x k = 0 := if_neg (by omega)

/-- Every byte of OUT is written by one of the accumulator's two words or by the zeros (41_pa_unit.md R151). -/
theorem tagOut_getElem (s : State) {k : Nat} (h : k < 32) : (tagOut s)[k] = tagByte s.acc.toNat k := by
  simp only [tagOut, memWrite_getElem 16 _ _ _ h, memWrite_word_getElem _ _ _ h, List.length_replicate,
    accLow_eq_ofNat, accMiddle_eq_ofNat]
  rcases (by omega : k < 8 ∨ (8 ≤ k ∧ k < 16) ∨ 16 ≤ k) with hk | hk | hk
  · rw [if_neg (by omega), if_neg (by omega), if_pos (by omega), Nat.sub_zero, tagByte_low _ hk]
  · rw [if_neg (by omega), if_pos (by omega), ← tagByte_middle _ (by omega), Nat.add_sub_of_le hk.1]
  · rw [if_pos (by omega), tagByte_upper _ hk, List.getD_replicate _ (by omega)]

theorem emitTag_okindBecomes (s : State) : OkindBecomes 2 s (emitTag s) := by
  simp [OkindBecomes, okindTag]

theorem emitTag_out_getD (s : State) {k : Nat} (h : k < 32) :
    (emitTag s).out.toList.getD k 0 = tagByte s.acc.toNat k := by
  rw [← tagOut_getElem s h]
  simp [List.getD_eq_getElem?_getD, h]

/-- The four words of OUT after the emit (41_pa_unit.md R151). -/
theorem outSum_emitTag (s : State) :
    outSum (emitTag s) 0 8 = BitVec.ofNat 64 s.acc.toNat ∧
    outSum (emitTag s) 8 8 = BitVec.ofNat 64 (s.acc.toNat / 2 ^ 64) ∧
    outSum (emitTag s) 16 8 = 0 ∧ outSum (emitTag s) 24 8 = 0 := by
  refine ⟨outSum_eq_of_bytes fun j hj => ?_, outSum_eq_of_bytes fun j hj => ?_, outSum_eq_of_bytes fun j hj => ?_,
    outSum_eq_of_bytes fun j hj => ?_⟩ <;> rw [emitTag_out_getD s (by omega)]
  · rw [Nat.zero_add, tagByte_low _ hj]
  · rw [tagByte_middle _ hj]
  · rw [tagByte_upper _ (by omega), byteOf_zero]
  · rw [tagByte_upper _ (by omega), byteOf_zero]

/-- The effect of PA.AUTH in the terms of Safety.lean: the emit from the computed limbs and accumulator. -/
theorem authEffect_eq_spec (s : State) :
    authEffect s = emitTag { s with limbs := limbsSpec s, acc := BitVec.ofNat 132 (authSpec s) } := by
  rw [authEffect_eq, keyLimbs_eq, authAcc_eq_ofNat]

theorem authEffect_out_getElem (s : State) {k : Nat} (h : k < 32) :
    (authEffect s).out[k] = tagByte (authSpec s) k := by
  rw [← authAcc_toNat]
  exact tagOut_getElem { s with acc := authAcc s } h

theorem authEffect_okindBecomes (s : State) : OkindBecomes 2 s (authEffect s) :=
  emitTag_okindBecomes { s with limbs := s.keyLimbs, acc := authAcc s }

/-! ### The statements -/

/-- Settles O33: the size and range checks of the key, and the clamp as the masked words of the key. -/
theorem paKeyOutcomes : Obligations.PaKeyOutcomes := by
  refine ⟨rfl, fun s hs => ?_⟩
  have outcomes := sizedCommand_outcomes (i := .paKey) (d := s.key) (n := 32) rfl rfl hs
  rwa [effectOf, keyLimbs_eq] at outcomes

/-- Settles O35: the size and range checks of the nonce, and the added stride as a sum of its bytes. -/
theorem paAddnOutcomes : Obligations.PaAddnOutcomes := by
  refine ⟨rfl, fun s hs => ?_⟩
  have outcomes := sizedCommand_outcomes (i := .paAddn) (d := s.non) (n := 16) rfl rfl hs
  rwa [effectOf, State.nonceStride, addStride_bufRead] at outcomes

/-- Settles O36: the three cases of the message check, and the added stride as a sum of its bytes. -/
theorem paAddmOutcomes : Obligations.PaAddmOutcomes := by
  refine fun off s _ hs => ⟨encode_paAddm off, ?_⟩
  have outcomes := messageCommand_outcomes (i := .paAddm off) rfl rfl hs
  rwa [effectOf, State.messageStride, addStride_bufRead] at outcomes

/-- Settles O40: PA.TAG has no check, and its effect is the emit, byte by byte and word by word. -/
theorem paTagEmitsTheTag : Obligations.PaTagEmitsTheTag :=
  ⟨rfl, fun s hs => ⟨emitTag s, exec_runs rfl hs rfl, rfl, fun k => tagOut_getElem s k.isLt,
    emitTag_okindBecomes s, outSum_emitTag s⟩⟩

/-- Settles O41: the four faults in the order of the check, and the emit from the limbs and the accumulator that the
strides and the three stages give. -/
theorem paAuthOutcomes : Obligations.PaAuthOutcomes := by
  refine ⟨rfl, fun s hs => ⟨fun hk => ?_, fun hk hn => ?_, fun hk hn hr => ?_, fun hk hn hrk hrn hrm hl hz => ?_,
    fun hk hn hrk hrn hrm h => ?_⟩⟩
  · exact exec_records (i := .paAuth) rfl hs (authCheck_of_keySize hk)
  · exact exec_records (i := .paAuth) rfl hs (authCheck_of_nonceSize hk hn)
  · exact exec_records (i := .paAuth) rfl hs (authCheck_of_outOfRange hk hn hr)
  · have check : authCheck s = some .bufferUnderflow := by
      rw [authCheck_of_inRange hk hn hrk hrn hrm, partialStride_faults hl hz, firstFault_true]
    exact exec_records (i := .paAuth) rfl hs check
  · have check : authCheck s = none := by
      rw [authCheck_of_inRange hk hn hrk hrn hrm, partialStride_passes h, firstFault_false, firstFault_nil]
    refine ⟨authEffect s, exec_runs (i := .paAuth) rfl hs check, ?_, fun k => authEffect_out_getElem s k.isLt,
      authEffect_okindBecomes s⟩
    rw [authEffect_eq_spec]
    rfl

/-- Settles O34: PA.CLR has no check, and its effect is the cleared accumulator. -/
theorem paClrClearsTheAccumulator : Obligations.PaClrClearsTheAccumulator :=
  ⟨rfl, fun _ hs => exec_runs rfl hs rfl⟩

/-- Settles O38: PA.MULR has no check, and its effect is the multiply-reduce step by the r limbs. -/
theorem paMulrMultipliesByR : Obligations.PaMulrMultipliesByR := by
  refine ⟨rfl, fun s hs => ?_⟩
  rw [exec_runs rfl hs rfl, effectOf, mulredAcc_eq_ofNat]

/-- Settles O39: PA.MULS has no check, and its effect is the multiply-reduce step by the s limbs. -/
theorem paMulsMultipliesByS : Obligations.PaMulsMultipliesByS := by
  refine ⟨rfl, fun s hs => ?_⟩
  rw [exec_runs rfl hs rfl, effectOf, mulredAcc_eq_ofNat]

end Sys2Proof.Machine
end

section
/-! SUPPORT. The proofs for the system commands (42_system.md): when clearing the record changes nothing, and the two
statements. -/

namespace Sys2Proof.Machine

/-- Writing 0 to FAULT and CAUSE where both are 0 keeps every bit of STATUS (10_state.md R30). -/
theorem putFault_zero_eq_self {v : Word} (hf : statusFault v = 0) (hc : statusCause v = 0) : putFault v 0 0 = v := by
  apply BitVec.eq_of_toNat_eq
  simp only [statusFault, statusCause, slice] at hf hc
  rw [putFault_toNat]
  omega

/-- The corner case of 42_system.md R181: there is no record to clear. -/
theorem clearFault_eq_self {s : State} (hf : statusFault s.status = 0) (hc : statusCause s.status = 0)
    (hi : s.finfo = 0) : clearFault s = s := by
  rw [clearFault, putFault_zero_eq_self hf hc, ← hi]

/-- Settles O16: SYS.CLRF runs in every state, and what it writes to STATUS is FAULT and CAUSE alone. -/
theorem clrfClearsTheRecordOnly : Obligations.ClrfClearsTheRecordOnly :=
  ⟨rfl, fun s => ⟨clearFault s, exec_sysClrf s, statusFault_putFault s.status 0 0, statusCause_putFault s.status 0 0,
    statusOkind_putFault s.status 0 0, reservedLow_putFault s.status 0 0, reservedHigh_putFault s.status 0 0, rfl,
    clearFault_eq_self⟩⟩

/-- Settles O17: SYS.RST runs in every state, and its effect is the soft reset, which names every register. -/
theorem rstZeroesEveryRegister : Obligations.RstZeroesEveryRegister := ⟨rfl, exec_sysRst⟩

end Sys2Proof.Machine
end

section
/-! SUPPORT. The proofs for the faults (60_exceptions.md): every check phase as one search through the causes in the order
of R200, and the three statements. -/

namespace Sys2Proof.Machine

/-! ### The order of the causes -/

/-- The causes in the order of 60_exceptions.md R200. -/
def causesInOrder : List Cause :=
  [.illegalCommand, .invalidKeySize, .invalidNonceSize, .badDescriptor, .bufferUnderflow]

theorem priority_lt_length (c : Cause) : c.priority < causesInOrder.length := by cases c <;> decide

/-- A cause's priority is its place in the order. -/
theorem causesInOrder_priority (c : Cause) : causesInOrder[c.priority]'(priority_lt_length c) = c := by cases c <;> rfl

theorem priority_causesInOrder : ∀ (k : Nat) (hk : k < causesInOrder.length), causesInOrder[k].priority = k := by
  decide

/-- The first cause in the order with a property is the one that has it when none of lower priority has. -/
theorem find?_causesInOrder (p : Cause → Bool) (c : Cause) :
    causesInOrder.find? p = some c ↔ p c = true ∧ ∀ e : Cause, e.priority < c.priority → p e = false := by
  rw [List.find?_eq_some_iff_getElem]
  refine and_congr_right fun _ => ⟨?_, fun h => ⟨c.priority, priority_lt_length c, causesInOrder_priority c, ?_⟩⟩
  · rintro ⟨k, hk, rfl, none_before⟩ e he
    rw [priority_causesInOrder] at he
    simpa [causesInOrder_priority] using none_before e.priority he
  · intro k hk
    have earlier := h (causesInOrder[k]'(hk.trans (priority_lt_length c))) (by rwa [priority_causesInOrder])
    simpa using earlier

/-- `firstFault` over causes with their conditions is a search for the first that holds. -/
theorem firstFault_eq_find? (p : Cause → Bool) (l : List Cause) :
    firstFault (l.map fun c => (p c, c)) = l.find? p := by
  induction l with
  | nil => rfl
  | cons c l ih => cases h : p c <;> simp [h, ih]

/-! ### The check phases -/

theorem firstFault_cons (b : Bool) (c : Cause) (rest : List (Bool × Cause)) :
    firstFault ((b, c) :: rest) = if b then some c else firstFault rest := by
  cases b <;> rfl

open Classical in
/-- Every check phase searches the causes in their order for the first whose condition holds (60_exceptions.md R200). -/
theorem checkOf_eq_find? (i : Instr) (s : State) :
    checkOf i s = causesInOrder.find? fun c => decide (faultCondition i c s) := by
  rw [← firstFault_eq_find?]
  cases i with
  | nhXor off | nhAbs off | paAddm off =>
    simp [checkOf, causesInOrder, firstFault_cons, messageCheck, inRange_eq, State.underflows, zpad_eq_false_iff]
  | nhDigest => simp [checkOf, causesInOrder, firstFault_cons, digestCheck, inRange_eq, zpad_eq_false_iff]
  | paKey => simp [checkOf, causesInOrder, firstFault_cons, State.keySizeWrong, inRange_eq]
  | paAddn => simp [checkOf, causesInOrder, firstFault_cons, State.nonceSizeWrong, inRange_eq]
  | paAuth =>
    simp [checkOf, causesInOrder, firstFault_cons, authCheck, State.keySizeWrong, State.nonceSizeWrong, inRange_eq,
      zpad_eq_false_iff, or_assoc]
  | sysClrf | sysRst | nhInit | nhRnd | nhOut | paClr | paMulr | paMuls | paTag =>
    simp [checkOf, causesInOrder, firstFault_cons]

/-- A check phase finds the cause whose condition holds when no condition earlier in the order does. -/
theorem checkOf_eq_some_iff (i : Instr) (c : Cause) (s : State) :
    checkOf i s = some c ↔
      faultCondition i c s ∧ ∀ e : Cause, e.priority < c.priority → ¬ faultCondition i e s := by
  classical
  rw [checkOf_eq_find?, find?_causesInOrder]
  simp only [decide_eq_true_iff, decide_eq_false_iff_not]

/-! ### What a command records -/

theorem Cause.code_lt (c : Cause) : c.code < 16 := by cases c <;> decide

theorem Cause.code_injective : Function.Injective Cause.code := by
  intro c d h
  cases c <;> cases d <;> simp_all [Cause.code]

/-- The system commands have no check phase (42_system.md R183). -/
theorem checkOf_sysCommand {i : Instr} (h : isSysCommand i = true) (s : State) : checkOf i s = none := by
  cases i with
  | sysClrf | sysRst => rfl
  | _ => cases h

theorem statusFault_sysCommand {i : Instr} (h : isSysCommand i = true) (s : State) :
    statusFault (effectOf i s).status = 0 := by
  cases i with
  | sysClrf => exact statusFault_putFault s.status 0 0
  | sysRst => exact congrArg statusFault (softReset_status s)
  | _ => cases h

/-- A command that no fault stands before records exactly what its check phase finds. -/
theorem exec_records_iff {i : Instr} {c : Cause} {s t : State} (hs : statusFault s.status = 0)
    (ht : exec i s = .next t) :
    (statusFault t.status = 1 ∧ statusCause t.status = c.code) ↔ checkOf i s = some c := by
  rcases exec_cases i s with ⟨hi, e⟩ | ⟨-, hf, -⟩ | ⟨-, -, d, hd, e⟩ | ⟨hi, -, hc, e⟩
  · obtain rfl : effectOf i s = t := by simpa [e] using ht
    simp [statusFault_sysCommand hi, checkOf_sysCommand hi]
  · simp [(faulted_eq_true_iff s).mp hf] at hs
  · obtain rfl : raise (encode i) d s = t := by simpa [e] using ht
    simp [hd, Nat.mod_eq_of_lt d.code_lt, Cause.code_injective.eq_iff]
  · obtain rfl : effectOf i s = t := by simpa [e] using ht
    simp [(effectOf_fault hi s).1, hs, hc]

/-- The first condition in the order is recorded, with the command's word (60_exceptions.md R195). -/
theorem exec_records_first {i : Instr} {c : Cause} {s : State} (hs : statusFault s.status = 0)
    (hc : faultCondition i c s) (none_before : ∀ e : Cause, e.priority < c.priority → ¬ faultCondition i e s) :
    ∃ t, exec i s = .next t ∧ FaultRecorded c.code (encode i) s t := by
  have found := (checkOf_eq_some_iff i c s).mpr ⟨hc, none_before⟩
  refine exec_records ?_ hs found
  rw [← Bool.not_eq_true]
  intro hi
  simp [checkOf_sysCommand hi] at found

/-! ### What stands before the two size conditions -/

/-- The comparison of a length over the naturals is that of the 64-bit values (60_exceptions.md R193, R194). -/
theorem length_ne_iff (d : Descriptor) (n : Word) : d.len.toNat ≠ n.toNat ↔ d.len ≠ n := BitVec.toNat_inj.not

/-- Only an illegal word stands before a wrong key length, and a command is none (60_exceptions.md R192). -/
theorem none_before_invalidKeySize (i : Instr) (s : State) (e : Cause)
    (he : e.priority < Cause.invalidKeySize.priority) : ¬ faultCondition i e s := by
  cases e with
  | illegalCommand => exact id
  | _ => simp [Cause.priority] at he

/-- Only a wrong key length stands before a wrong nonce length. -/
theorem none_before_invalidNonceSize {i : Instr} {s : State} (hk : ¬ faultCondition i .invalidKeySize s) (e : Cause)
    (he : e.priority < Cause.invalidNonceSize.priority) : ¬ faultCondition i e s := by
  cases e with
  | illegalCommand => exact id
  | invalidKeySize => exact hk
  | _ => simp [Cause.priority] at he

/-! ### The statements -/

/-- Settles O11: a command records what its check phase finds, and that is the first condition in the order. -/
theorem firstConditionInOrderIsReported : Obligations.FirstConditionInOrderIsReported :=
  fun i c s _ hs ht => (exec_records_iff hs ht).trans (checkOf_eq_some_iff i c s)

/-- Settles O14: no condition stands before the one of the key length. -/
theorem wrongKeyLengthFaults : Obligations.WrongKeyLengthFaults := by
  refine fun s i hs => ⟨fun hi hk => ?_, fun t ht hf hc => ?_⟩
  · exact exec_records_first (c := .invalidKeySize) hs ⟨hi, (length_ne_iff s.key 32).mpr hk⟩
      (none_before_invalidKeySize i s)
  · obtain ⟨⟨hi, hk⟩, -⟩ := (firstConditionInOrderIsReported i .invalidKeySize s t hs ht).mp ⟨hf, hc⟩
    exact ⟨hi, (length_ne_iff s.key 32).mp hk⟩

/-- Settles O15: the condition of the key length alone stands before the one of the nonce length, and PA.ADDN does not
have it. -/
theorem wrongNonceLengthFaults : Obligations.WrongNonceLengthFaults := by
  refine fun s i hs => ⟨fun hi hn => ?_, fun t ht hf hc => ?_⟩
  · have right_key : ¬ faultCondition i .invalidKeySize s := by
      rcases hi with rfl | ⟨-, hk⟩
      · simp
      · simp [hk]
    exact exec_records_first (c := .invalidNonceSize) hs ⟨hi.imp_right And.left, (length_ne_iff s.non 16).mpr hn⟩
      (none_before_invalidNonceSize right_key)
  · obtain ⟨⟨hi, hn⟩, none_before⟩ := (firstConditionInOrderIsReported i .invalidNonceSize s t hs ht).mp ⟨hf, hc⟩
    refine ⟨hi.imp_right fun hi => ⟨hi, ?_⟩, (length_ne_iff s.non 16).mp hn⟩
    by_contra hk
    exact none_before .invalidKeySize (by decide) ⟨.inr hi, (length_ne_iff s.key 32).mpr hk⟩

end Sys2Proof.Machine
end

section
/-! SUPPORT. The proofs for the encoding (30_encoding.md): a word decodes to a command exactly when its three fields
are the command's, and those fields make up the word; the five statements follow from these two. -/

namespace Sys2Proof

/-! ### The two tables of opcodes -/

theorem opcode_lt (i : Instr) : i.opcode < 2 ^ 8 := by
  cases i <;> simp [Instr.opcode]

theorem wellFormed_iff (i : Instr) : i.wellFormed = true ↔ i.offsetField < 2 ^ 24 := by
  cases i <;> simp [Instr.wellFormed, offsetFits, Instr.offsetField]

/-- A row of the format-N table is a command's opcode, and the command has no offset. -/
theorem fields_of_formatN {op : Nat} {i : Instr} (h : formatN op = some i) : i.opcode = op ∧ i.offsetField = 0 := by
  unfold formatN at h
  split at h <;> cases h <;> exact ⟨rfl, rfl⟩

/-- A row of the format-A table is a command's opcode, and the offset field is the command's. -/
theorem fields_of_formatA {op off : Nat} {i : Instr} (h : formatA op off = some i) :
    i.opcode = op ∧ i.offsetField = off := by
  unfold formatA at h
  split at h <;> cases h <;> exact ⟨rfl, rfl⟩

/-- Every command stands in one of the two tables. -/
theorem formatN_or_formatA (i : Instr) :
    (formatN i.opcode = some i ∧ i.offsetField = 0) ∨
    (formatN i.opcode = none ∧ formatA i.opcode i.offsetField = some i) := by
  cases i with
  | nhXor off | nhAbs off | paAddm off => exact .inr ⟨rfl, rfl⟩
  | sysClrf | sysRst | nhInit | nhRnd | nhOut | nhDigest | paKey | paClr | paAddn | paMulr | paMuls | paTag | paAuth =>
    exact .inl ⟨rfl, rfl⟩

/-! ### The decoder on the fields of a word -/

/-- A word decodes to a command exactly when its upper half is zero and its fields are the command's. -/
theorem decode_eq_command_iff_fields (v : Word) (i : Instr) :
    decode v = .command i ↔ slice v 63 32 = 0 ∧ slice v 31 24 = i.opcode ∧ slice v 23 0 = i.offsetField := by
  constructor
  · intro h
    unfold decode at h
    split at h
    · cases h
    · rename_i nonzero
      have upper := not_not.mp nonzero
      split at h
      · rename_i j row
        obtain ⟨op, field⟩ := fields_of_formatN row
        split at h
        · rename_i low
          cases h
          exact ⟨upper, op.symm, low.trans field.symm⟩
        · cases h
      · split at h
        · rename_i j row
          obtain ⟨op, field⟩ := fields_of_formatA row
          cases h
          exact ⟨upper, op.symm, field.symm⟩
        · cases h
  · rintro ⟨upper, op, field⟩
    rcases formatN_or_formatA i with ⟨row, none_field⟩ | ⟨no_row, row⟩
    · simp [decode, upper, op, field, row, none_field]
    · simp [decode, upper, op, field, no_row, row]

/-- The fields of a well-formed command's word (30_encoding.md R91, R92). -/
theorem slices_encode {i : Instr} (h : i.wellFormed = true) :
    slice (encode i) 63 32 = 0 ∧ slice (encode i) 31 24 = i.opcode ∧ slice (encode i) 23 0 = i.offsetField :=
  Laws.EncodedWord.of_bounds (opcode_lt i) (wellFormed_iff i).mp h

/-- A word with a zero upper half is made up of its two other fields (30_encoding.md R98). -/
theorem eq_ofNat_of_fields {v : Word} (upper : slice v 63 32 = 0) :
    BitVec.ofNat 64 (slice v 31 24 <<< 24 + slice v 23 0) = v := by
  apply BitVec.eq_of_toNat_eq
  have := v.isLt
  simp only [slice, BitVec.toNat_ofNat, Nat.shiftLeft_eq] at upper ⊢
  omega

/-- A word decodes to a command exactly when it is the encoding of that command, which is well formed. -/
theorem decode_eq_command_iff (v : Word) (i : Instr) :
    decode v = .command i ↔ i.wellFormed = true ∧ encode i = v := by
  constructor
  · intro h
    obtain ⟨upper, op, field⟩ := (decode_eq_command_iff_fields v i).mp h
    refine ⟨(wellFormed_iff i).mpr ?_, ?_⟩
    · rw [← field]
      exact Machine.slice_lt v 23 0
    · rw [encode, ← op, ← field, eq_ofNat_of_fields upper]
  · rintro ⟨wf, rfl⟩
    exact (decode_eq_command_iff_fields _ i).mpr (slices_encode wf)

/-- Settles O2: the fields of the encoding are the command's, and the decoder reads them back. -/
theorem decodeOfEncodedCommand : Obligations.DecodeOfEncodedCommand :=
  fun i wf => (decode_eq_command_iff (encode i) i).mpr ⟨wf, rfl⟩

/-- Settles O3: the word is made up of the fields that the decoder read. -/
theorem encodeOfDecodedWord : Obligations.EncodeOfDecodedWord :=
  fun v i h => (decode_eq_command_iff v i).mp h

/-! ### The rows of the opcode table -/

/-- The command with its offset, where it has one, replaced. -/
def Instr.withOffset : Instr → Nat → Instr
  | .nhXor _, off => .nhXor off
  | .nhAbs _, off => .nhAbs off
  | .paAddm _, off => .paAddm off
  | i, _ => i

/-- The row of spec/opcode_table.json for a command. -/
def rowOf : Instr → OpcodeRow
  | .nhXor _ => rowA "NH.XOR" 0x0000000011000000
  | .nhAbs _ => rowA "NH.ABS" 0x0000000013000000
  | .paAddm _ => rowA "PA.ADDM" 0x0000000023000000
  | i => rowN i.mnemonic (encode i)

/-- One command for each row of the opcode table. -/
def tableCommands : List Instr :=
  [.sysClrf, .sysRst, .nhInit, .nhXor 0, .nhRnd, .nhAbs 0, .nhOut, .nhDigest,
    .paKey, .paClr, .paAddn, .paAddm 0, .paMulr, .paMuls, .paTag, .paAuth]

theorem opcodeRows_eq : opcodeRows = tableCommands.map rowOf := by decide

theorem withOffset_zero_mem (i : Instr) : i.withOffset 0 ∈ tableCommands := by
  cases i <;> simp [Instr.withOffset, tableCommands]

theorem withOffset_withOffset (i : Instr) : (i.withOffset 0).withOffset i.offsetField = i := by
  cases i <;> rfl

theorem mnemonic_withOffset (i : Instr) (off : Nat) : (i.withOffset off).mnemonic = i.mnemonic := by
  cases i <;> rfl

theorem rowOf_mnemonic (i : Instr) : (rowOf i).mnemonic = i.mnemonic := by
  cases i <;> rfl

/-- A format-N row selects by all 64 bits (30_encoding.md R91). -/
theorem rowN_matches_iff (m : String) (i : Instr) (wf : i.wellFormed = true) (v : Word) :
    v &&& (rowN m (encode i)).mask = (rowN m (encode i)).pattern ↔ decode v = .command i := by
  have all_bits : v &&& 0xFFFFFFFFFFFFFFFF = v := BitVec.and_allOnes
  dsimp only [rowN]
  rw [decode_eq_command_iff, all_bits, eq_comm]
  simp [wf]

/-- A mask of all bits from `n` upward clears the bits below. -/
theorem and_allOnes_shiftLeft {w : Nat} (x : BitVec w) (n : Nat) :
    x &&& (BitVec.allOnes w <<< n) = (x >>> n) <<< n := by
  ext k hk
  by_cases low : k < n
  · simp [low]
  · simp [low, Nat.add_sub_of_le (not_lt.mp low), BitVec.getLsbD_eq_getElem hk]

/-- A format-A row selects by bits 63:24 (30_encoding.md R92). -/
theorem rowA_matches_iff (m : String) {op : Nat} (hop : op < 2 ^ 8) (v : Word) :
    v &&& (rowA m (BitVec.ofNat 64 (op * 2 ^ 24))).mask = (rowA m (BitVec.ofNat 64 (op * 2 ^ 24))).pattern ↔
      slice v 63 32 = 0 ∧ slice v 31 24 = op := by
  have high_bits : v &&& (0xFFFFFFFFFF000000 : Word) = (v >>> 24) <<< 24 := by
    rw [show (0xFFFFFFFFFF000000 : Word) = BitVec.allOnes 64 <<< 24 by decide, and_allOnes_shiftLeft]
  have := v.isLt
  dsimp only [rowA]
  rw [high_bits, ← BitVec.toNat_inj]
  simp only [slice, BitVec.toNat_shiftLeft, BitVec.toNat_ushiftRight, BitVec.toNat_ofNat, Nat.shiftLeft_eq,
    Nat.shiftRight_eq_div_pow]
  omega

/-- A row matches the words of its command, with every offset where it has one. -/
theorem rowOf_matches_iff (v : Word) (i : Instr) :
    v &&& (rowOf i).mask = (rowOf i).pattern ↔ ∃ off, decode v = .command (i.withOffset off) := by
  cases i with
  | nhXor _ =>
    refine (rowA_matches_iff _ (op := 0x11) (by decide) v).trans ?_
    simp [Instr.withOffset, decode_eq_command_iff_fields, Instr.opcode, Instr.offsetField]
  | nhAbs _ =>
    refine (rowA_matches_iff _ (op := 0x13) (by decide) v).trans ?_
    simp [Instr.withOffset, decode_eq_command_iff_fields, Instr.opcode, Instr.offsetField]
  | paAddm _ =>
    refine (rowA_matches_iff _ (op := 0x23) (by decide) v).trans ?_
    simp [Instr.withOffset, decode_eq_command_iff_fields, Instr.opcode, Instr.offsetField]
  | sysClrf | sysRst | nhInit | nhRnd | nhOut | nhDigest | paKey | paClr | paAddn | paMulr | paMuls | paTag | paAuth =>
    exact (rowN_matches_iff _ _ rfl v).trans (exists_const Nat).symm

/-- Settles O4: the rows are those of the commands, and a row matches the words of its command. -/
theorem decodeAcceptsExactlyTheOpcodeTable : Obligations.DecodeAcceptsExactlyTheOpcodeTable := by
  intro v m
  simp only [opcodeRows_eq, List.mem_map, exists_exists_and_eq_and, rowOf_mnemonic, rowOf_matches_iff]
  constructor
  · rintro ⟨i, hv, hm⟩
    exact ⟨i.withOffset 0, withOffset_zero_mem i, (mnemonic_withOffset i 0).trans hm, i.offsetField,
      by rwa [withOffset_withOffset]⟩
  · rintro ⟨i, -, hm, off, hv⟩
    exact ⟨i.withOffset off, hv, (mnemonic_withOffset i off).trans hm⟩

/-! ### The illegal words -/

/-- The opcodes of 30_encoding.md R94. -/
theorem formatN_eq_none_iff (op : Nat) : formatN op = none ↔
    op ∉ [0x01, 0x02, 0x10, 0x12, 0x14, 0x1F, 0x20, 0x21, 0x22, 0x24, 0x25, 0x26, 0x2F] := by
  unfold formatN
  split <;> simp_all

theorem formatA_eq_none_iff (op off : Nat) : formatA op off = none ↔ op ∉ [0x11, 0x13, 0x23] := by
  unfold formatA
  split <;> simp_all

/-- Settles O5: the decoder's branches, each with the opcodes it stands for. -/
theorem illegalWordsExactly : Obligations.IllegalWordsExactly := by
  intro v
  by_cases upper : slice v 63 32 = 0
  · cases hN : formatN (slice v 31 24) with
    | some i =>
      have op : ¬ formatN (slice v 31 24) = none := by simp [hN]
      rw [formatN_eq_none_iff, not_not] at op
      have decoded : (∃ why, decode v = .illegal why) ↔ slice v 23 0 ≠ 0 := by
        by_cases low : slice v 23 0 = 0 <;> simp [decode, upper, hN, low]
      rw [decoded]
      simp only [List.mem_cons, List.not_mem_nil, or_false] at op ⊢
      omega
    | none =>
      have no_row := (formatN_eq_none_iff _).mp hN
      have decoded : (∃ why, decode v = .illegal why) ↔ formatA (slice v 31 24) (slice v 23 0) = none := by
        cases hA : formatA (slice v 31 24) (slice v 23 0) <;> simp [decode, upper, hN, hA]
      rw [decoded, formatA_eq_none_iff]
      simp only [List.mem_cons, List.not_mem_nil, or_false] at no_row ⊢
      omega
  · simp [decode, upper]

/-- Settles O1: each word evaluates. -/
theorem commandWordsDecode : Obligations.CommandWordsDecode := by
  unfold Obligations.CommandWordsDecode
  decide

end Sys2Proof
end

section
/-! SUPPORT. What a command and a step can do, each as one inversion lemma, and the statements that follow from
them: the delivery of words (30_encoding.md R95), the faulted state and what leaves it (60_exceptions.md), the
frames of the commands (10_state.md) and the resets. -/

namespace Sys2Proof.Machine

/-! ### What a command can do -/

/-- The next state of a command: a system command's effect, the same state while a fault is recorded, the record of
the check's fault, or the command's effect. -/
theorem exec_next_cases {i : Instr} {s t : State} (h : exec i s = .next t) :
    (isSysCommand i = true ∧ t = effectOf i s) ∨
    (isSysCommand i = false ∧ statusFault s.status = 1 ∧ t = s) ∨
    (isSysCommand i = false ∧ statusFault s.status = 0 ∧ ∃ c, checkOf i s = some c ∧ t = raise (encode i) c s) ∨
    (isSysCommand i = false ∧ statusFault s.status = 0 ∧ checkOf i s = none ∧ t = effectOf i s) := by
  rcases exec_cases i s with ⟨hi, e⟩ | ⟨hi, hf, e⟩ | ⟨hi, hf, c, hc, e⟩ | ⟨hi, hf, hc, e⟩ <;>
    cases h.symm.trans e
  · exact .inl ⟨hi, rfl⟩
  · exact .inr (.inl ⟨hi, (faulted_eq_true_iff s).mp hf, rfl⟩)
  · exact .inr (.inr (.inl ⟨hi, (faulted_eq_false_iff s).mp hf, c, hc, rfl⟩))
  · exact .inr (.inr (.inr ⟨hi, (faulted_eq_false_iff s).mp hf, hc, rfl⟩))

/-- While a fault is recorded a command is dropped (60_exceptions.md R201). -/
theorem exec_dropped {i : Instr} {s : State} (hi : isSysCommand i = false) (hs : statusFault s.status = 1) :
    exec i s = .next s := by
  rw [exec_eq_execute hi, execute_dropped _ _ _ ((faulted_eq_true_iff s).mpr hs)]

/-- A command after which no fault is recorded has run in full, from a state without a fault. -/
theorem exec_ran {i : Instr} {s t : State} (hi : isSysCommand i = false) (h : exec i s = .next t)
    (ht : statusFault t.status = 0) : statusFault s.status = 0 ∧ checkOf i s = none ∧ t = effectOf i s := by
  rcases exec_next_cases h with ⟨sys, -⟩ | ⟨-, hs, rfl⟩ | ⟨-, -, c, -, rfl⟩ | ⟨-, hs, hc, rfl⟩
  · simp [hi] at sys
  · omega
  · simp at ht
  · exact ⟨hs, hc, rfl⟩

/-- A cause whose condition can hold for a command is one of the command's causes (60_exceptions.md R203). -/
theorem mem_faultsOf_of_condition {i : Instr} {c : Cause} {s : State} (h : faultCondition i c s) : c ∈ faultsOf i := by
  cases c with
  | illegalCommand => exact h.elim
  | invalidKeySize => rcases h.1 with rfl | rfl <;> simp [faultsOf]
  | invalidNonceSize => rcases h.1 with rfl | rfl <;> simp [faultsOf]
  | badDescriptor => cases i <;> simp_all [faultsOf, faultCondition, usesBadDescriptor]
  | bufferUnderflow => cases i <;> simp_all [faultsOf, faultCondition, readsPastEnd]

theorem mem_faultsOf_of_checkOf {i : Instr} {c : Cause} {s : State} (h : checkOf i s = some c) : c ∈ faultsOf i :=
  mem_faultsOf_of_condition ((checkOf_eq_some_iff i c s).mp h).1

/-- FAULT and CAUSE after a command, from those before it and what its check finds. -/
def recordAfter (i : Instr) (v : Word) (found : Option Cause) : Nat × Nat :=
  if isSysCommand i then (0, 0)
  else if statusFault v = 1 then (1, statusCause v)
  else (found.elim 0 fun _ => 1, found.elim (statusCause v) Cause.code)

theorem statusCause_sysCommand {i : Instr} (h : isSysCommand i = true) (s : State) :
    statusCause (effectOf i s).status = 0 := by
  cases i with
  | sysClrf => exact statusCause_putFault s.status 0 0
  | sysRst => exact congrArg statusCause (softReset_status s)
  | _ => cases h

/-- Nothing but the check and STATUS decides what a command leaves in FAULT and CAUSE (60_exceptions.md R199). -/
theorem record_eq_recordAfter {i : Instr} {s t : State} (h : exec i s = .next t) :
    (statusFault t.status, statusCause t.status) = recordAfter i s.status (checkOf i s) := by
  rcases exec_next_cases h with ⟨hi, rfl⟩ | ⟨hi, hs, rfl⟩ | ⟨hi, hs, c, hc, rfl⟩ | ⟨hi, hs, hc, rfl⟩
  · simp [recordAfter, hi, statusFault_sysCommand, statusCause_sysCommand]
  · simp [recordAfter, hi, hs]
  · simp [recordAfter, hi, hs, hc, Nat.mod_eq_of_lt c.code_lt]
  · simp [recordAfter, hi, hs, hc, effectOf_fault hi]

/-- The check phases read only CTRL, the descriptors and the capacity (60_exceptions.md R199). -/
theorem checkOf_congr_mbCap (i : Instr) {s s' : State} (hc : s'.ctrl = s.ctrl) (hk : s'.key = s.key)
    (hn : s'.non = s.non) (hm : s'.msg = s.msg) (hp : s'.params.mbCap = s.params.mbCap) :
    checkOf i s' = checkOf i s := by
  have same_condition (c : Cause) : faultCondition i c s' ↔ faultCondition i c s := by
    cases c with
    | illegalCommand => exact Iff.rfl
    | invalidKeySize | invalidNonceSize => simp [faultCondition, hk, hn]
    | badDescriptor => cases i <;> simp [faultCondition, usesBadDescriptor, outOfRange, hk, hn, hm, hp]
    | bufferUnderflow => cases i <;> simp [faultCondition, readsPastEnd, hm, hc]
  refine Option.ext fun c => ?_
  rw [checkOf_eq_some_iff, checkOf_eq_some_iff]
  exact and_congr (same_condition c) (forall₂_congr fun e _ => (same_condition e).not)

/-- What every command leaves as it is (10_state.md R36). -/
theorem exec_keeps {i : Instr} {s t : State} (h : exec i s = .next t) :
    t.mb = s.mb ∧ t.mbEpoch = s.mbEpoch ∧ t.params = s.params := by
  rcases exec_next_cases h with ⟨hi, rfl⟩ | ⟨-, -, rfl⟩ | ⟨-, -, c, -, rfl⟩ | ⟨hi, -, -, rfl⟩
  · cases i with
    | sysClrf | sysRst => exact ⟨rfl, rfl, rfl⟩
    | _ => cases hi
  · exact ⟨rfl, rfl, rfl⟩
  · exact ⟨rfl, rfl, rfl⟩
  · obtain ⟨-, -, -, -, -, mb, params, epoch, -, -⟩ := effectOf_keeps hi s
    exact ⟨mb, epoch, params⟩

/-- CTRL and the descriptors are written by SYS.RST alone (10_state.md R31, R34). -/
theorem exec_keeps_configuration {i : Instr} {s t : State} (h : exec i s = .next t) (hr : i ≠ .sysRst) :
    t.ctrl = s.ctrl ∧ t.key = s.key ∧ t.non = s.non ∧ t.msg = s.msg := by
  rcases exec_next_cases h with ⟨hi, rfl⟩ | ⟨-, -, rfl⟩ | ⟨-, -, c, -, rfl⟩ | ⟨hi, -, -, rfl⟩
  · cases i with
    | sysClrf => exact ⟨rfl, rfl, rfl, rfl⟩
    | sysRst => exact absurd rfl hr
    | _ => cases hi
  · exact ⟨rfl, rfl, rfl, rfl⟩
  · exact ⟨rfl, rfl, rfl, rfl⟩
  · obtain ⟨ctrl, -, key, non, msg, -⟩ := effectOf_keeps hi s
    exact ⟨ctrl, key, non, msg⟩

/-- A command leaves every working register as it is, or its effect is what happened. -/
theorem exec_effect_or_keeps {i : Instr} {s t : State} (h : exec i s = .next t) :
    t = effectOf i s ∨ (t.ns = s.ns ∧ t.limbs = s.limbs ∧ t.acc = s.acc ∧ t.out = s.out) := by
  rcases exec_next_cases h with ⟨-, rfl⟩ | ⟨-, -, rfl⟩ | ⟨-, -, c, -, rfl⟩ | ⟨-, -, -, rfl⟩
  · exact .inl rfl
  · exact .inr ⟨rfl, rfl, rfl, rfl⟩
  · exact .inr ⟨rfl, rfl, rfl, rfl⟩
  · exact .inl rfl

/-! ### What a step can do -/

/-- A 64-bit write to CMD issues the word (30_encoding.md R95). -/
theorem step_cmd {s : State} {v : Word} {rest : List HostAccess} (h : s.pending = .write 0x000 8 v :: rest) :
    step s = issue v { s with pending := rest } := by
  rw [step_pending h, hostAccess, hostWrite_cmd]

theorem issue_command {v : Word} {i : Instr} (h : decode v = .command i) (s : State) : issue v s = exec i s := by
  simp only [issue, h]

theorem issue_illegal {v : Word} {why : IllegalReason} (h : decode v = .illegal why) (s : State) :
    issue v s = .next (rejectWord v s) := by
  simp only [issue, h]

theorem rejectWord_dropped {s : State} (v : Word) (hs : statusFault s.status = 1) : rejectWord v s = s := by
  rw [rejectWord, if_pos ((faulted_eq_true_iff s).mpr hs)]

theorem rejectWord_recorded {s : State} (v : Word) (hs : statusFault s.status = 0) :
    rejectWord v s = raise v .illegalCommand s := by
  rw [rejectWord, (faulted_eq_false_iff s).mpr hs, if_neg Bool.false_ne_true]

/-- The words of the two system commands (42_system.md R181, R182). -/
theorem word_of_sysCommand {v : Word} {i : Instr} (h : decode v = .command i) (hi : isSysCommand i = true) :
    v = 0x0000000001000000 ∨ v = 0x0000000002000000 := by
  obtain ⟨-, rfl⟩ := (decode_eq_command_iff v i).mp h
  cases i with
  | sysClrf => exact .inl rfl
  | sysRst => exact .inr rfl
  | _ => cases hi

/-- While a fault is recorded every word but the system commands' is dropped (60_exceptions.md R201). -/
theorem issue_dropped {s : State} {v : Word} (hs : statusFault s.status = 1) (h1 : v ≠ 0x0000000001000000)
    (h2 : v ≠ 0x0000000002000000) : issue v s = .next s := by
  cases hd : decode v with
  | illegal why => rw [issue_illegal hd, rejectWord_dropped v hs]
  | command i =>
    rw [issue_command hd]
    refine exec_dropped ?_ hs
    by_contra sys
    exact (word_of_sysCommand hd (by simpa using sys)).elim h1 h2

/-- The register at an offset has that offset. -/
theorem offset_of_regAt {offset : Nat} {r : HostReg} (h : regAt offset = some r) : offset = r.offset := by
  unfold regAt at h
  split at h <;> cases h <;> rfl

/-- CMD is written by a 64-bit access at its offset alone. -/
theorem targetOf_eq_cmd {cap offset w : Nat} (h : targetOf cap false offset w = .register .cmd) :
    offset = 0x000 ∧ w = 8 := by
  unfold targetOf at h
  split_ifs at h with _ _ form
  · cases hr : regAt offset with
    | none => simp [hr] at h
    | some r =>
      simp only [hr, Target.register.injEq] at h
      exact ⟨offset_of_regAt (h ▸ hr), form.1⟩

/-- A window access has all its bytes below the capacity (10_state.md R41). -/
theorem targetOf_eq_window {cap offset w a : Nat} {isRead : Bool} (h : targetOf cap isRead offset w = .window a) :
    a + w ≤ cap := by
  unfold targetOf at h
  split_ifs at h with _ _ _ _ _ inside
  · cases hr : regAt offset <;> simp [hr] at h
  · exact Target.window.inj h ▸ inside

/-- What a host write of `v` to a register other than CMD can change (10_state.md R43). -/
def HostStored (v : Word) (s t : State) : Prop :=
  t = { s with ns := t.ns, ctrl := t.ctrl, key := t.key, non := t.non, msg := t.msg } ∧
  (t.ctrl = s.ctrl ∨ t.ctrl = ctrlStored v)

theorem regWrite_stored {v : Word} {s t : State} {r : HostReg} (hr : r ≠ .cmd) (h : regWrite v s r = .next t) :
    HostStored v s t := by
  cases r with
  | cmd => exact absurd rfl hr
  | ctrl => cases h; exact ⟨rfl, .inr rfl⟩
  | _ => cases h; exact ⟨rfl, .inl rfl⟩

/-- What a host write can do. -/
theorem hostWrite_next_cases {offset w : Nat} {v : Word} {s t : State} (h : hostWrite offset w v s = .next t) :
    (offset = 0x000 ∧ w = 8 ∧ issue v s = .next t) ∨ HostStored v s t ∨
    ∃ a, a + w ≤ s.params.mbCap ∧ t = { s with mb := Memory.writeBytes s.mb a v w } := by
  unfold hostWrite at h
  split at h
  · rename_i r target
    by_cases hr : r = .cmd
    · subst hr
      obtain ⟨ho, hw⟩ := targetOf_eq_cmd target
      exact .inl ⟨ho, hw, h⟩
    · exact .inr (.inl (regWrite_stored hr h))
  · rename_i a target
    cases h
    exact .inr (.inr ⟨a, targetOf_eq_window target, rfl⟩)
  · cases h
  · cases h
  · cases h

/-- Everything a step can do: nothing, a hard reset, a read, a write to a register, a write to MB, or a word issued.
-/
theorem step_next_cases {s t : State} (h : step s = .next t) :
    t = s ∨ ∃ rest,
      (s.pending = .hardReset :: rest ∧ t = hardReset { s with pending := rest }) ∨
      (∃ v, t = { s with pending := rest, reply := some v }) ∨
      (∃ v, HostStored v { s with pending := rest } t) ∨
      (∃ a w v, a + w ≤ s.params.mbCap ∧ t = { s with pending := rest, mb := Memory.writeBytes s.mb a v w }) ∨
      ∃ v, s.pending = .write 0x000 8 v :: rest ∧ issue v { s with pending := rest } = .next t := by
  cases hp : s.pending with
  | nil =>
    rw [step_idle hp] at h
    cases h
    exact .inl rfl
  | cons x rest =>
    rw [step_pending hp] at h
    refine .inr ⟨rest, ?_⟩
    cases x with
    | hardReset =>
      cases h
      exact .inl ⟨rfl, rfl⟩
    | read offset w => exact .inr (.inl (hostRead_next h))
    | write offset w v =>
      rcases hostWrite_next_cases h with ⟨rfl, rfl, hi⟩ | stored | ⟨a, ha, rfl⟩
      · exact .inr (.inr (.inr (.inr ⟨v, rfl, hi⟩)))
      · exact .inr (.inr (.inl ⟨v, stored⟩))
      · exact .inr (.inr (.inr (.inl ⟨a, w, v, ha, rfl⟩)))

/-- What a word issued can do: its command's outcome, or its rejection. -/
theorem issue_next_cases {v : Word} {s t : State} (h : issue v s = .next t) :
    (∃ i, decode v = .command i ∧ exec i s = .next t) ∨ (∃ why, decode v = .illegal why) ∧ t = rejectWord v s := by
  cases hd : decode v with
  | command i => exact .inl ⟨i, rfl, issue_command hd s ▸ h⟩
  | illegal why =>
    rw [issue_illegal hd] at h
    cases h
    exact .inr ⟨⟨why, rfl⟩, rfl⟩

/-! ### The statements about delivery -/

/-- Settles O6: the step performs the write, and the write to CMD runs what the word decodes to. -/
theorem stepRunsDecodedCommand : Obligations.StepRunsDecodedCommand :=
  fun _ _ _ _ hp hd => (step_cmd hp).trans (issue_command hd _)

/-- Settles O7: without a recorded fault an illegal word is recorded as IllegalCommand. -/
theorem illegalWordRaisesIllegalCommand : Obligations.IllegalWordRaisesIllegalCommand := by
  intro s v rest why hp hd hs
  refine ⟨raise v .illegalCommand { s with pending := rest }, ?_, raise_faultRecorded v .illegalCommand _⟩
  rw [step_cmd hp, issue_illegal hd]
  exact congrArg _ (rejectWord_recorded v hs)

/-- Settles O8: the word issued is dropped. -/
theorem faultedEngineDropsEveryOtherWord : Obligations.FaultedEngineDropsEveryOtherWord :=
  fun _ _ _ hp hs h1 h2 => (step_cmd hp).trans (issue_dropped hs h1 h2)

/-- Settles O9: each command of the list is dropped, by induction on the list. -/
theorem sequenceAfterFaultIsDropped : Obligations.SequenceAfterFaultIsDropped := by
  intro cs s hs plain
  induction cs with
  | nil => rfl
  | cons i cs ih =>
    obtain ⟨hi, hcs⟩ := List.forall_mem_cons.mp plain
    rw [execAll_cons cs (exec_dropped hi hs), ih hcs]

/-- Settles O10: each of the four things a command can do is a next state. -/
theorem everyCommandCompletes : Obligations.EveryCommandCompletes := by
  intro i s
  rcases exec_cases i s with ⟨-, e⟩ | ⟨-, -, e⟩ | ⟨-, -, c, -, e⟩ | ⟨-, -, -, e⟩ <;> exact ⟨_, e⟩

/-! ### The statements about faults -/

/-- Settles O12: of what a command can do, only the record of its check's fault sets FAULT. -/
theorem faultingCommandChangesOnlyTheRecord : Obligations.FaultingCommandChangesOnlyTheRecord := by
  intro i s t hs h ht
  rcases exec_next_cases h with ⟨hi, rfl⟩ | ⟨-, hf, -⟩ | ⟨-, -, c, hc, rfl⟩ | ⟨hi, -, -, rfl⟩
  · simp [statusFault_sysCommand hi] at ht
  · omega
  · exact ⟨c, mem_faultsOf_of_checkOf hc, raise_faultRecorded (encode i) c s⟩
  · rw [(effectOf_fault hi s).1] at ht
    omega

/-- Settles O13: FAULT and CAUSE after a command are those of the check, which reads nothing else. -/
theorem faultConditionsIgnoreMbContents : Obligations.FaultConditionsIgnoreMbContents := by
  intro i s s' t t' status ctrl key non msg mbCap ht ht'
  have record' := record_eq_recordAfter ht'
  rw [status, checkOf_congr_mbCap i ctrl key non msg mbCap, ← record_eq_recordAfter ht] at record'
  exact Prod.mk.inj record'

/-- Settles O18: every other step leaves FAULT as it is. -/
theorem waysOutOfTheFaultedState : Obligations.WaysOutOfTheFaultedState := by
  intro s t hs h ht
  have not_kept : statusFault t.status ≠ statusFault s.status := by omega
  rcases step_next_cases h with rfl | ⟨rest, ⟨hp, -⟩ | ⟨v, rfl⟩ | ⟨v, stored, -⟩ | ⟨a, w, v, -, rfl⟩ | ⟨v, hp, hv⟩⟩
  · exact absurd rfl not_kept
  · exact ⟨rest, .inr (.inr hp)⟩
  · exact absurd rfl not_kept
  · exact absurd (congrArg (fun u => statusFault u.status) stored) not_kept
  · exact absurd rfl not_kept
  · refine ⟨rest, ?_⟩
    by_cases h1 : v = 0x0000000001000000
    · exact .inl (h1 ▸ hp)
    by_cases h2 : v = 0x0000000002000000
    · exact .inr (.inl (h2 ▸ hp))
    rw [issue_dropped (s := { s with pending := rest }) hs h1 h2] at hv
    cases hv
    exact absurd rfl not_kept

/-! ### The statements about resets -/

theorem mbByte_congr {s t : State} (hm : t.mb = s.mb) (he : t.mbEpoch = s.mbEpoch) (a : Nat) :
    t.mbByte a = s.mbByte a := by
  rw [State.mbByte, State.mbByte, hm, he]

/-- Settles O19: the fields of the reset state and of the soft reset, and MB as each leaves it. -/
theorem resetLeavesEveryRegisterZero : Obligations.ResetLeavesEveryRegisterZero :=
  ⟨⟨rfl, rfl, rfl, rfl, rfl, rfl, rfl, rfl, rfl, rfl, fun _ => rfl⟩,
    fun s => ⟨softReset s, exec_sysRst s, rfl, rfl, rfl, rfl, rfl, rfl, rfl, rfl, rfl, rfl,
      mbByte_congr (softReset_mb s) (softReset_mbEpoch s)⟩⟩

/-- Settles O20: the step performs the hard reset. -/
theorem hardResetZeroesRegistersAndForgetsMb : Obligations.HardResetZeroesRegistersAndForgetsMb :=
  fun _ _ hp => step_pending hp

/-! ### The statements about frames -/

/-- Settles O49: what every command keeps, and what every command but SYS.RST keeps. -/
theorem commandsLeaveMbCtrlAndDescriptors : Obligations.CommandsLeaveMbCtrlAndDescriptors := by
  intro i s t h
  obtain ⟨mb, epoch, -⟩ := exec_keeps h
  exact ⟨mbByte_congr mb epoch, mb, exec_keeps_configuration h⟩

/-- Settles O48: neither an access of the host nor a command writes the parameters. -/
theorem stepKeepsTheParameters : Obligations.StepKeepsTheParameters := by
  intro s t h
  rcases step_next_cases h with rfl | ⟨rest, ⟨-, rfl⟩ | ⟨v, rfl⟩ | ⟨v, stored, -⟩ | ⟨a, w, v, -, rfl⟩ | ⟨v, -, hv⟩⟩
  · rfl
  · rfl
  · rfl
  · rw [stored]
  · rfl
  · rcases issue_next_cases hv with ⟨i, -, hi⟩ | ⟨-, rfl⟩
    · exact (exec_keeps hi).2.2
    · unfold rejectWord
      split <;> rfl

/-- Settles O50: an effect that writes a register is the effect of one of its writers. -/
theorem writersOfEachWorkingRegister : Obligations.WritersOfEachWorkingRegister := by
  intro i s t h
  rcases exec_effect_or_keeps h with rfl | ⟨ns, limbs, acc, out⟩
  · cases i <;> simp [effectOf]
  · exact ⟨absurd ns, absurd limbs, absurd acc, absurd out⟩

end Sys2Proof.Machine
end

section
/-! SUPPORT. The invariant of legal states: each operation on the state keeps it, so every step does. The fields
`ns`, `acc`, the descriptors, `pending` and `reply` do not occur in it. -/

namespace Sys2Proof.Machine

/-! ### Fault entry, its return and the resets -/

theorem Cause.code_bounds (c : Cause) : 1 ≤ c.code ∧ c.code ≤ 5 := by cases c <;> decide

/-- Recording a fault with a word that can raise it keeps the invariant (60_exceptions.md R195). -/
theorem inv_raise {w : Word} {c : Cause} {s : State} (h : s.Inv) (hw : explains w c.code = true) :
    (raise w c s).Inv := by
  obtain ⟨⟨low, high, kind, -, -⟩, ctrl, limbs, -, out, mb, params⟩ := h
  refine ⟨?_, ctrl, limbs, ?_, ?_, mb, params⟩
  · simp [statusLegal, low, high, kind, Nat.mod_eq_of_lt c.code_lt, c.code_bounds]
  · simp [finfoLegal, Nat.mod_eq_of_lt c.code_lt, hw]
  · simpa [outLegal] using out

theorem inv_clearFault {s : State} (h : s.Inv) : (clearFault s).Inv := by
  obtain ⟨⟨low, high, kind, -, -⟩, ctrl, limbs, -, out, mb, params⟩ := h
  refine ⟨?_, ctrl, limbs, ?_, ?_, mb, params⟩
  · simp [statusLegal, low, high, kind]
  · simp [finfoLegal]
  · simpa [outLegal] using out

/-- The state in which every register is zero meets the part of the invariant that speaks of the registers. -/
theorem registersLegal_of_zero {s : State} (status : s.status = 0) (ctrl : s.ctrl = 0) (limbs : s.limbs = ⟨0, 0, 0, 0⟩)
    (finfo : s.finfo = 0) (out : s.out = Vector.replicate 32 0) :
    statusLegal s ∧ ctrlLegal s ∧ limbsClamped s ∧ finfoLegal s ∧ outLegal s := by
  refine ⟨?_, ?_, ?_, ⟨fun _ => finfo, ?_⟩, fun _ => out, fun _ k _ => by simp [out]⟩
  · rw [statusLegal, status]
    decide
  · rw [ctrlLegal, ctrl]
    decide
  · rw [limbsClamped, limbs]
    decide
  · rw [status]
    exact fun faulted => absurd faulted (by decide)

theorem inv_softReset {s : State} (h : s.Inv) : (softReset s).Inv := by
  obtain ⟨-, -, -, -, -, mb, params⟩ := h
  obtain ⟨status, ctrl, limbs, finfo, out⟩ := registersLegal_of_zero (s := softReset s) rfl rfl rfl rfl rfl
  exact ⟨status, ctrl, limbs, finfo, out, mb, params⟩

theorem mbLegal_of_empty {s : State} (h : s.mb = []) : mbLegal s := by
  simp [mbLegal, h]

theorem inv_hardReset {s : State} (h : s.Inv) : (hardReset s).Inv := by
  obtain ⟨status, ctrl, limbs, finfo, out, -, params⟩ := inv_softReset h
  exact ⟨status, ctrl, limbs, finfo, out, mbLegal_of_empty rfl, params⟩

/-! ### The effects of the commands -/

theorem inv_withNs {s : State} (x : NhState) (h : s.Inv) : State.Inv { s with ns := x } := h

theorem inv_withAcc {s : State} (x : Acc) (h : s.Inv) : State.Inv { s with acc := x } := h

/-- A masked word is unchanged by its mask. -/
theorem and_eq_and_and (x m : Word) : x &&& m = x &&& m &&& m := by
  rw [BitVec.and_assoc, BitVec.and_self]

/-- The limbs of a key are clamped (41_pa_unit.md R141), and nothing else of the invariant speaks of the limbs. -/
theorem inv_keyLimbs {s : State} (h : s.Inv) : State.Inv { s with limbs := s.keyLimbs } := by
  obtain ⟨status, ctrl, -, finfo, out, mb, params⟩ := h
  rw [keyLimbs_eq]
  exact ⟨status, ctrl, ⟨and_eq_and_and _ _, and_eq_and_and _ _, and_eq_and_and _ _, and_eq_and_and _ _⟩, finfo, out,
    mb, params⟩

theorem inv_emitDigest {s : State} (h : s.Inv) : (emitDigest s).Inv := by
  obtain ⟨⟨low, high, -, cause⟩, ctrl, limbs, finfo, -, mb, params⟩ := h
  refine ⟨?_, ctrl, limbs, ?_, ?_, mb, params⟩
  · simpa [statusLegal, low, high, okindDigest] using cause
  · simpa [finfoLegal] using finfo
  · simp [outLegal, okindDigest]

/-- The upper half of OUT is zero when it holds a tag (41_pa_unit.md R151). -/
theorem inv_emitTag {s : State} (h : s.Inv) : (emitTag s).Inv := by
  obtain ⟨⟨low, high, -, cause⟩, ctrl, limbs, finfo, -, mb, params⟩ := h
  refine ⟨?_, ctrl, limbs, ?_, ?_, mb, params⟩
  · simpa [statusLegal, low, high, okindTag] using cause
  · simpa [finfoLegal] using finfo
  · refine ⟨by simp [okindTag], fun _ k hk => ?_⟩
    show (tagOut s)[k.val] = 0
    rw [tagOut_getElem s k.isLt, tagByte_upper _ hk]

theorem inv_effectOf {s : State} (h : s.Inv) (i : Instr) : (effectOf i s).Inv := by
  cases i with
  | sysClrf => exact inv_clearFault h
  | sysRst => exact inv_softReset h
  | nhInit | nhXor _ | nhRnd | nhAbs _ => exact inv_withNs _ h
  | paClr | paAddn | paAddm _ | paMulr | paMuls => exact inv_withAcc _ h
  | nhOut => exact inv_emitDigest h
  | nhDigest => exact inv_emitDigest (inv_withNs s.nhDigestState h)
  | paKey => exact inv_keyLimbs h
  | paTag => exact inv_emitTag h
  | paAuth =>
    rw [effectOf, authEffect_eq]
    exact inv_emitTag (inv_withAcc (authAcc s) (inv_keyLimbs h))

/-! ### The words issued -/

/-- A command's word explains each of the command's causes (60_exceptions.md R203). -/
theorem explains_encode {i : Instr} {c : Cause} (wf : i.wellFormed = true) (hc : c ∈ faultsOf i) :
    explains (encode i) c.code = true := by
  simp only [explains, decodeOfEncodedCommand i wf, List.any_eq_true, beq_iff_eq]
  exact ⟨c, hc, rfl⟩

theorem explains_illegal {v : Word} {why : IllegalReason} (h : decode v = .illegal why) :
    explains v Cause.illegalCommand.code = true := by
  simp [explains, h]

theorem inv_exec {i : Instr} {s t : State} (wf : i.wellFormed = true) (hs : s.Inv) (h : exec i s = .next t) :
    t.Inv := by
  rcases exec_next_cases h with ⟨-, rfl⟩ | ⟨-, -, rfl⟩ | ⟨-, -, c, hc, rfl⟩ | ⟨-, -, -, rfl⟩
  · exact inv_effectOf hs i
  · exact hs
  · exact inv_raise hs (explains_encode wf (mem_faultsOf_of_checkOf hc))
  · exact inv_effectOf hs i

/-- A word issued keeps the invariant: a command that decodes is well formed, an illegal word explains its own
fault. -/
theorem inv_issue {v : Word} {s t : State} (hs : s.Inv) (h : issue v s = .next t) : t.Inv := by
  rcases issue_next_cases h with ⟨i, hd, hi⟩ | ⟨⟨why, hd⟩, rfl⟩
  · exact inv_exec (encodeOfDecodedWord v i hd).1 hs hi
  · unfold rejectWord
    split
    · exact hs
    · exact inv_raise hs (explains_illegal hd)

/-! ### The host's writes -/

theorem ctrlStored_legal (v : Word) : slice (ctrlStored v) 63 1 = 0 := by
  simp only [slice, ctrlStored_toNat]
  omega

theorem inv_hostStored {v : Word} {s t : State} (hs : s.Inv) (h : HostStored v s t) : t.Inv := by
  obtain ⟨status, ctrl, limbs, finfo, out, mb, params⟩ := hs
  obtain ⟨stored, ctrl_eq⟩ := h
  have ctrl' : ctrlLegal t := by
    rcases ctrl_eq with e | e <;> rw [ctrlLegal, e]
    · exact ctrl
    · exact ctrlStored_legal v
  rw [stored]
  exact ⟨status, ctrl', limbs, finfo, out, mb, params⟩

theorem inv_writeBytes {s : State} {a w : Nat} (v : Word) (hs : s.Inv) (ha : a + w ≤ s.params.mbCap) :
    State.Inv { s with mb := Memory.writeBytes s.mb a v w } := by
  obtain ⟨status, ctrl, limbs, finfo, out, ⟨wf, below⟩, params⟩ := hs
  refine ⟨status, ctrl, limbs, finfo, out, ⟨wf_writeBytes a v w wf, fun c hc => ?_⟩, params⟩
  rcases mem_writeBytes hc with ⟨-, hc⟩ | hc
  · exact hc.trans_le ha
  · exact below c hc

/-! ### The statements -/

/-- Settles O46: the registers are zero, MB lists nothing, and the capacity is one more than an element of Fin 2^24.
-/
theorem resetStateIsLegal : Obligations.ResetStateIsLegal := by
  obtain ⟨status, ctrl, limbs, finfo, out⟩ := registersLegal_of_zero (s := State.reset) rfl rfl rfl rfl rfl
  exact ⟨status, ctrl, limbs, finfo, out, mbLegal_of_empty rfl, Nat.le_add_left 1 _, Config.mbCapLessOne.isLt⟩

/-- Settles O47: each of the things a step can do keeps the invariant. -/
theorem stepKeepsLegalStates : Obligations.StepKeepsLegalStates := by
  intro s t hs h
  rcases step_next_cases h with rfl | ⟨rest, ⟨-, rfl⟩ | ⟨v, rfl⟩ | ⟨v, stored⟩ | ⟨a, w, v, ha, rfl⟩ | ⟨v, -, hv⟩⟩
  · exact hs
  · exact inv_hardReset (s := { s with pending := rest }) hs
  · exact hs
  · exact inv_hostStored (s := { s with pending := rest }) hs stored
  · exact inv_writeBytes v hs ha
  · exact inv_issue (s := { s with pending := rest }) hs hv

end Sys2Proof.Machine
end

section
/-! SUPPORT. Sequences of commands: a sequence without a system command that ends without a recorded fault is the
sequence of the effects, because no effect changes a later check. With it the equalities of a command and a sequence
(40_nh_unit.md, 41_pa_unit.md). -/

namespace Sys2Proof.Machine

/-! ### A sequence that runs in full -/

/-- The effects of a list of commands, one after another. -/
def effects (l : List Instr) (s : State) : State := l.foldl (fun u i => effectOf i u) s

@[simp] theorem effects_nil (s : State) : effects [] s = s := rfl

@[simp] theorem effects_cons (i : Instr) (l : List Instr) (s : State) :
    effects (i :: l) s = effects l (effectOf i s) := rfl

theorem effects_append (l l' : List Instr) (s : State) : effects (l ++ l') s = effects l' (effects l s) :=
  List.foldl_append

/-- A sequence none of whose checks finds a fault in the first state runs in full. -/
theorem execAll_runs {l : List Instr} {s : State} (plain : ∀ i ∈ l, isSysCommand i = false)
    (hs : statusFault s.status = 0) (checks : ∀ i ∈ l, checkOf i s = none) :
    execAll l s = .next (effects l s) := by
  induction l generalizing s with
  | nil => rfl
  | cons i l ih =>
    obtain ⟨hi, hl⟩ := List.forall_mem_cons.mp plain
    obtain ⟨ci, cl⟩ := List.forall_mem_cons.mp checks
    rw [execAll_cons l (exec_runs hi hs ci)]
    refine ih hl ((effectOf_fault hi s).1.trans hs) fun j hj => ?_
    rw [checkOf_effectOf hi, cl j hj]

/-- A sequence after which no fault is recorded has run in full, and every check passed already in the first state. -/
theorem execAll_ran {l : List Instr} {s t : State} (plain : ∀ i ∈ l, isSysCommand i = false)
    (h : execAll l s = .next t) (ht : statusFault t.status = 0) :
    statusFault s.status = 0 ∧ (∀ i ∈ l, checkOf i s = none) ∧ t = effects l s := by
  induction l generalizing s with
  | nil =>
    cases h
    exact ⟨ht, by simp, rfl⟩
  | cons i l ih =>
    obtain ⟨hi, hl⟩ := List.forall_mem_cons.mp plain
    obtain ⟨u, hu⟩ := everyCommandCompletes i s
    rw [execAll_cons l hu] at h
    obtain ⟨fault_u, checks_u, rfl⟩ := ih hl h
    obtain ⟨hs, ci, rfl⟩ := exec_ran hi hu fault_u
    refine ⟨hs, List.forall_mem_cons.mpr ⟨ci, fun j hj => ?_⟩, rfl⟩
    rw [← checkOf_effectOf hi, checks_u j hj]

/-- A check finds nothing exactly when no condition holds. -/
theorem checkOf_eq_none_iff (i : Instr) (s : State) : checkOf i s = none ↔ ∀ c, ¬ faultCondition i c s := by
  classical
  rw [checkOf_eq_find?, List.find?_eq_none]
  simp only [decide_eq_true_eq]
  exact ⟨fun h c => h c (causesInOrder_priority c ▸ List.getElem_mem _), fun h c _ => h c⟩

theorem ctrlZpad_eq_one {v : Word} (h : ctrlZpad v ≠ 0) : ctrlZpad v = 1 := by
  have := ctrlZpad_le_one v
  omega

/-! ### NH.XOR and NH.ABS -/

theorem xorBlock_xorBlock (x w : NhState) : xorBlock (xorBlock x w) w = x := by
  simp [xorBlock]

/-- Settles O26: the five checks pass as the one of NH.ABS does, and the effects compose to its effect. -/
theorem nhAbsIsXorAndFourRounds : Obligations.NhAbsIsXorAndFourRounds := by
  intro off s t h ht
  obtain ⟨hs, check, rfl⟩ := exec_ran rfl h ht
  rw [execAll_runs (by simp [isSysCommand]) hs (by simpa [checkOf] using check)]
  rfl

/-- Settles O27: the block that NH.XOR reads is the same the second time, and the xor is its own inverse. -/
theorem nhXorTwiceRestores : Obligations.NhXorTwiceRestores := by
  intro off s t h ht
  obtain ⟨hs, check, -⟩ := exec_ran rfl h ht
  rw [execAll_runs (by simp [isSysCommand]) hs (by simpa using check)]
  have restored : effects [.nhXor off, .nhXor off] s =
      { s with ns := xorBlock (xorBlock s.ns (s.nhBlock off)) (s.nhBlock off) } := rfl
  rw [restored, xorBlock_xorBlock]

/-! ### NH.DIGEST -/

/-- What passes when the check of NH.DIGEST passes. -/
theorem digestCheck_passed {s : State} (h : checkOf .nhDigest s = none) :
    ¬ outOfRange s s.msg ∧ (s.msg.len.toNat % 32 = 0 ∨ ctrlZpad s.ctrl = 1) := by
  have none_holds := (checkOf_eq_none_iff .nhDigest s).mp h
  refine ⟨none_holds .badDescriptor, or_iff_not_imp_left.mpr fun partial_tail => ctrlZpad_eq_one fun zpad => ?_⟩
  exact none_holds .bufferUnderflow ⟨partial_tail, zpad⟩

/-- The commands of the sequence: those without a check, and reads of blocks that begin inside the message, the last
one possibly partial (40_nh_unit.md R119). -/
theorem mem_digestSequence {len : Nat} {i : Instr} (h : i ∈ digestSequence len) :
    i = .nhInit ∨ i = .nhOut ∨ (∃ off, i = .nhAbs off ∧ off + 32 ≤ len) ∨
      ∃ off, i = .nhXor off ∧ len % 32 ≠ 0 ∧ off < len := by
  simp only [digestSequence, List.mem_append, List.mem_map, List.mem_range, List.mem_singleton] at h
  rcases h with ((h | ⟨k, hk, rfl⟩) | h) | h
  · exact .inl h
  · exact .inr (.inr (.inl ⟨32 * k, rfl, by omega⟩))
  · split at h
    · simp at h
    · rename_i partial_tail
      exact .inr (.inr (.inr ⟨32 * (len / 32), by simpa using h, partial_tail, by omega⟩))
  · exact .inr (.inl h)

/-- NH.INIT and one NH.ABS for each complete block leave the blocks absorbed. -/
theorem effects_absorb (s : State) (k : Nat) :
    effects ([.nhInit] ++ (List.range k).map fun i => .nhAbs (32 * i)) s = { s with ns := s.nhAbsorbed k } := by
  induction k with
  | zero => rfl
  | succ k ih =>
    rw [List.range_succ, List.map_append, ← List.append_assoc, effects_append, ih]
    rfl

theorem effects_digestSequence (s : State) :
    effects (digestSequence s.msg.len.toNat) s = effectOf .nhDigest s := by
  rw [digestSequence, effects_append, effects_append, effects_absorb, effectOf, State.nhDigestState]
  split <;> rfl

/-- Settles O30: every check of the sequence passes when the one of NH.DIGEST does, and the effects compose to its
effect. -/
theorem nhDigestEqualsItsPrimitives : Obligations.NhDigestEqualsItsPrimitives := by
  intro s t cap h ht
  obtain ⟨hs, check, rfl⟩ := exec_ran rfl h ht
  obtain ⟨inside, zpad⟩ := digestCheck_passed check
  constructor
  · rw [← effects_digestSequence]
    refine execAll_runs (fun i hi => ?_) hs fun i hi => ?_
    · rcases mem_digestSequence hi with rfl | rfl | ⟨off, rfl, -⟩ | ⟨off, rfl, -⟩ <;> rfl
    · rcases mem_digestSequence hi with rfl | rfl | ⟨off, rfl, le⟩ | ⟨off, rfl, partial_tail, -⟩
      · rfl
      · rfl
      · exact messageCheck_eq_none inside (.inl le)
      · exact messageCheck_eq_none inside (.inr (zpad.resolve_left partial_tail))
  · intro i hi
    rw [wellFormed_iff]
    rcases mem_digestSequence hi with rfl | rfl | ⟨off, rfl, le⟩ | ⟨off, rfl, -, lt⟩ <;>
      simp only [Instr.offsetField, outOfRange] at inside ⊢ <;> omega

/-! ### PA.ADDN, PA.ADDM and PA.AUTH -/

theorem addStride_right_comm (x : Acc) (b c : List Byte) :
    addStride (addStride x b) c = addStride (addStride x c) b := by
  apply BitVec.eq_of_toNat_eq
  simp only [addStride_toNat, Nat.mod_add_mod, Nat.add_right_comm]

theorem nonceStride_withAcc (s : State) (x : Acc) : State.nonceStride { s with acc := x } = s.nonceStride := rfl

theorem messageStride_withAcc (s : State) (x : Acc) (off : Nat) :
    State.messageStride { s with acc := x } off = s.messageStride off := rfl

/-- Settles O37: both orders run when one does, and the sum of the two strides does not depend on the order. -/
theorem addsCommute : Obligations.AddsCommute := by
  intro off s t h ht
  obtain ⟨hs, checks, rfl⟩ := execAll_ran (by simp [isSysCommand]) h ht
  rw [execAll_runs (by simp [isSysCommand]) hs fun i hi => checks i (by simpa [or_comm] using hi)]
  simp only [effects_cons, effects_nil, effectOf, nonceStride_withAcc, messageStride_withAcc]
  rw [addStride_right_comm]

/-- What passes when the check of PA.AUTH passes. -/
theorem authCheck_passed {s : State} (h : checkOf .paAuth s = none) :
    s.key.len.toNat = 32 ∧ s.non.len.toNat = 16 ∧ ¬ outOfRange s s.key ∧ ¬ outOfRange s s.non ∧
    ¬ outOfRange s s.msg ∧ (s.msg.len.toNat % 16 = 0 ∨ ctrlZpad s.ctrl = 1) := by
  have none_holds := (checkOf_eq_none_iff .paAuth s).mp h
  have in_range := none_holds .badDescriptor
  simp only [faultCondition, usesBadDescriptor, not_or] at in_range
  obtain ⟨key, non, msg⟩ := in_range
  refine ⟨?_, ?_, key, non, msg,
    or_iff_not_imp_left.mpr fun partial_stride => ctrlZpad_eq_one fun zpad => ?_⟩
  · exact not_not.mp fun wrong => none_holds .invalidKeySize ⟨.inr rfl, wrong⟩
  · exact not_not.mp fun wrong => none_holds .invalidNonceSize ⟨.inr rfl, wrong⟩
  · exact none_holds .bufferUnderflow ⟨partial_stride, zpad⟩

/-- The commands of the sequence: those whose check is part of the one of PA.AUTH or empty, and reads of strides
that begin inside the message (41_pa_unit.md R152). -/
theorem mem_authSequence {len : Nat} {i : Instr} (h : i ∈ authSequence len) :
    i ∈ [.paKey, .paAddn] ∨ i ∈ [.paClr, .paMulr, .paMuls, .paTag] ∨
      ∃ off, i = .paAddm off ∧ off < len ∧ (off + 16 ≤ len ∨ len % 16 ≠ 0) := by
  simp only [authSequence, List.mem_append, List.mem_map, List.mem_range] at h
  rcases h with (h | ⟨k, hk, rfl⟩) | h
  · simp only [List.mem_cons, List.not_mem_nil, or_false] at h ⊢
    tauto
  · exact .inr (.inr ⟨16 * k, rfl, by omega, by omega⟩)
  · simp only [List.mem_cons, List.not_mem_nil, or_false] at h ⊢
    tauto

/-- PA.KEY, PA.CLR, PA.ADDN and one PA.ADDM for each stride leave the limbs and the accumulated strides. -/
theorem effects_accumulate (s : State) (n : Nat) :
    effects ([.paKey, .paClr, .paAddn] ++ (List.range n).map fun i => .paAddm (16 * i)) s =
      { s with limbs := s.keyLimbs, acc := s.paAccumulated n } := by
  induction n with
  | zero => rfl
  | succ n ih =>
    rw [List.range_succ, List.map_append, ← List.append_assoc, effects_append, ih]
    rfl

theorem effects_authSequence (s : State) : effects (authSequence s.msg.len.toNat) s = effectOf .paAuth s := by
  rw [authSequence, effects_append, effects_accumulate, effectOf, authEffect_eq, authAcc, strideCount]
  rfl

/-- The three checks of PA.AUTH pass, so the checks of its sequence do. -/
theorem checks_authSequence {s : State} (h : checkOf .paAuth s = none) {i : Instr}
    (hi : i ∈ authSequence s.msg.len.toNat) : checkOf i s = none := by
  obtain ⟨key_len, non_len, key, non, msg, zpad⟩ := authCheck_passed h
  rcases mem_authSequence hi with sized | unchecked | ⟨off, rfl, -, whole⟩
  · simp only [List.mem_cons, List.not_mem_nil, or_false] at sized
    rcases sized with rfl | rfl
    · simp [checkOf, State.keySizeWrong, key_len, inRange_of_not_outOfRange key]
    · simp [checkOf, State.nonceSizeWrong, non_len, inRange_of_not_outOfRange non]
  · simp only [List.mem_cons, List.not_mem_nil, or_false] at unchecked
    rcases unchecked with rfl | rfl | rfl | rfl <;> rfl
  · exact messageCheck_eq_none msg (whole.imp_right zpad.resolve_left)

/-- Settles O42: every check of the sequence passes when the one of PA.AUTH does, and the effects compose to its
effect. -/
theorem paAuthEqualsItsPrimitives : Obligations.PaAuthEqualsItsPrimitives := by
  intro s t cap h ht
  obtain ⟨hs, check, rfl⟩ := exec_ran rfl h ht
  obtain ⟨-, -, -, -, inside, -⟩ := authCheck_passed check
  constructor
  · rw [← effects_authSequence]
    refine execAll_runs (fun i hi => ?_) hs fun i hi => checks_authSequence check hi
    rcases mem_authSequence hi with sized | unchecked | ⟨off, rfl, -⟩
    · exact (by decide : ∀ j ∈ [Instr.paKey, .paAddn], isSysCommand j = false) i sized
    · exact (by decide : ∀ j ∈ [Instr.paClr, .paMulr, .paMuls, .paTag], isSysCommand j = false) i unchecked
    · rfl
  · intro i hi
    rcases mem_authSequence hi with sized | unchecked | ⟨off, rfl, lt, -⟩
    · exact (by decide : ∀ j ∈ [Instr.paKey, .paAddn], j.wellFormed = true) i sized
    · exact (by decide : ∀ j ∈ [Instr.paClr, .paMulr, .paMuls, .paTag], j.wellFormed = true) i unchecked
    · rw [wellFormed_iff]
      simp only [Instr.offsetField, outOfRange] at inside ⊢
      omega

end Sys2Proof.Machine
end

section
/-! SUPPORT. What the results of the two units depend on: the round as a bijection (40_nh_unit.md section 3), the
digest as a function of the constants and the message bytes, the tag as a function of the key bytes and the stride
sum modulo 2^128, and the registers that a unit's commands neither read nor write (10_state.md R37). -/

namespace Sys2Proof.Machine

/-! ### The round is a bijection -/

theorem rotateRight_rotateLeft {w n : Nat} (x : BitVec w) (h : n < w) : (x.rotateLeft n).rotateRight n = x := by
  ext i hi
  simp only [BitVec.getElem_rotateRight, BitVec.getElem_rotateLeft, Nat.mod_eq_of_lt h]
  by_cases low : i < w - n
  · rw [dif_pos low, dif_neg (by omega)]
    simp only [Nat.add_sub_cancel_left]
  · rw [dif_neg low, dif_pos (by omega)]
    simp only [Nat.add_sub_of_le (not_lt.mp low)]

theorem rotateLeft_rotateRight {w n : Nat} (x : BitVec w) (h : n < w) : (x.rotateRight n).rotateLeft n = x := by
  ext i hi
  simp only [BitVec.getElem_rotateRight, BitVec.getElem_rotateLeft, Nat.mod_eq_of_lt h]
  by_cases low : i < n
  · rw [dif_pos low, dif_neg (by omega)]
    simp only [Nat.add_sub_cancel_left]
  · rw [dif_neg low, dif_pos (by omega)]
    simp only [Nat.add_sub_of_le (not_lt.mp low)]

/-- The single-assignment form of the round, undone from its last line to its first. -/
def roundInverse (y : NhState) : NhState :=
  let c2 := y.c.rotateRight 32
  let b1 := (y.b ^^^ c2).rotateRight 17
  let c1 := c2 - b1
  let d1 := (y.d ^^^ y.a).rotateRight 21
  let a1 := (y.a - d1).rotateRight 32
  let b := (b1 ^^^ a1).rotateRight 13
  let d := (d1 ^^^ c1).rotateRight 16
  { a := a1 - b, b := b, c := c1 - d, d := d }

theorem roundInverse_roundSpec (x : NhState) : roundInverse (roundSpec x) = x := by
  simp [roundInverse, roundSpec, rotateRight_rotateLeft]

theorem roundSpec_roundInverse (y : NhState) : roundSpec (roundInverse y) = y := by
  simp [roundInverse, roundSpec, rotateLeft_rotateRight]

/-- Settles O23: the round has an inverse on both sides. -/
theorem nhRoundIsABijection : Obligations.NhRoundIsABijection := by
  refine ⟨nhRound_eq, ?_, by decide⟩
  rw [funext nhRound_eq]
  exact Function.bijective_iff_has_inverse.mpr ⟨roundInverse, roundInverse_roundSpec, roundSpec_roundInverse⟩

/-! ### The digest -/

theorem bufByte_beyond {s : State} {d : Descriptor} {k : Nat} (h : d.len.toNat ≤ k) : s.bufByte d k = 0 :=
  if_neg (not_lt.mpr h)

theorem bufWord_beyond {s : State} {d : Descriptor} {k : Nat} (h : d.len.toNat ≤ k) : bufWord s d k = 0 := by
  have zero (j : Nat) : (s.bufByte d (k + j)).toNat = 0 := by
    rw [bufByte_beyond (by omega)]
    rfl
  simp [bufWord, zero]

/-- A block beyond the message is all zero, and its xor changes nothing. -/
theorem xorBlock_beyond {s : State} {off : Nat} (x : NhState) (h : s.msg.len.toNat ≤ off) :
    xorBlock x (s.nhBlock off) = x := by
  rw [xorBlock_nhBlock, xorMessage, bufWord_beyond h, bufWord_beyond (by omega), bufWord_beyond (by omega),
    bufWord_beyond (by omega)]
  simp

/-- The last xor of the digest may be made whether there is a partial tail or not. -/
theorem nhDigestState_eq_xorBlock (s : State) :
    s.nhDigestState =
      xorBlock (s.nhAbsorbed (s.msg.len.toNat / 32)) (s.nhBlock (32 * (s.msg.len.toNat / 32))) := by
  by_cases whole : s.msg.len.toNat % 32 = 0
  · rw [xorBlock_beyond _ (by omega)]
    exact if_pos whole
  · exact if_neg whole

section
variable {s s' : State} (constants : nhConstants s'.params = nhConstants s.params)
  (bytes : ∀ k, s'.bufByte s'.msg k = s.bufByte s.msg k)
include bytes

theorem nhBlock_congr (off : Nat) : s'.nhBlock off = s.nhBlock off := by
  simp only [State.nhBlock, State.bufRead, bytes]

include constants

theorem nhAbsorbed_congr (k : Nat) : s'.nhAbsorbed k = s.nhAbsorbed k := by
  induction k with
  | zero => exact constants
  | succ k ih => rw [State.nhAbsorbed, State.nhAbsorbed, ih, nhBlock_congr bytes]

/-- The digest is a function of the constants, the message's bytes, padded with zeros, and the number of blocks. -/
theorem nhDigestState_congr (blocks : s'.msg.len.toNat / 32 = s.msg.len.toNat / 32) :
    s'.nhDigestState = s.nhDigestState := by
  rw [nhDigestState_eq_xorBlock, nhDigestState_eq_xorBlock, blocks, nhAbsorbed_congr constants bytes,
    nhBlock_congr bytes]

end

/-- OUT after NH.DIGEST is the digest alone, whatever it held before. -/
theorem digest_out_congr {s s' : State} (h : s'.nhDigestState = s.nhDigestState) :
    (effectOf .nhDigest s').out = (effectOf .nhDigest s).out := by
  refine Vector.ext fun k hk => ?_
  show (digestOut { s' with ns := s'.nhDigestState })[k] = (digestOut { s with ns := s.nhDigestState })[k]
  rw [digestOut_getElem _ hk, digestOut_getElem _ hk, h]

theorem nhConstants_congr {p q : Params} (h0 : q.nhC0 = p.nhC0) (h1 : q.nhC1 = p.nhC1) :
    nhConstants q = nhConstants p := by
  rw [nhConstants, nhConstants, h0, h1]

/-- Settles O31: equal message bytes are equal buffer bytes at every index, because both buffers end at the same
one. -/
theorem digestDependsOnTheMessageAlone : Obligations.DigestDependsOnTheMessageAlone := by
  intro s s' t t' h ht h' ht' c0 c1 _ len bytes
  obtain ⟨-, -, rfl⟩ := exec_ran rfl h ht
  obtain ⟨-, -, rfl⟩ := exec_ran rfl h' ht'
  refine digest_out_congr (nhDigestState_congr (nhConstants_congr c0 c1) (fun k => ?_) (by rw [len]))
  unfold State.bufByte
  rw [len]
  split
  · rename_i lt
    exact bytes k lt
  · rfl

/-- Settles O32: with the zero bytes after the message the buffer bytes are equal at every index, and the number of
blocks is the same. -/
theorem zeroBytesInTheTailWindowDoNotCount : Obligations.ZeroBytesInTheTailWindowDoNotCount := by
  intro s s' t t' h ht h' ht' c0 c1 len_le blocks bytes zeros
  obtain ⟨-, -, rfl⟩ := exec_ran rfl h ht
  obtain ⟨-, -, rfl⟩ := exec_ran rfl h' ht'
  refine digest_out_congr (nhDigestState_congr (nhConstants_congr c0 c1) (fun k => ?_) blocks)
  unfold State.bufByte
  by_cases inside : k < s.msg.len.toNat
  · rw [if_pos inside, if_pos (by omega), bytes k inside]
  · rw [if_neg inside]
    split
    · rename_i lt
      exact zeros k (not_lt.mp inside) lt
    · rfl

/-! ### The tag -/

/-- One multiply-reduce stage modulo 2^128 (41_pa_unit.md R154 (b)). -/
def tagStage (x h l : Nat) : Nat := (x + h <<< 32) % 2 ^ 128 * l % 2 ^ 128

/-- A stage modulo 2^132, reduced, is the stage modulo 2^128 of the reduced value. -/
theorem mulredSpec_mod (x h l : Nat) : mulredSpec x h l % 2 ^ 128 = tagStage (x % 2 ^ 128) h l := by
  have divides : 2 ^ 128 ∣ 2 ^ 132 := pow_dvd_pow 2 (by norm_num)
  rw [mulredSpec, tagStage, Nat.mod_mod_of_dvd _ divides, Nat.mul_mod, Nat.mod_mod_of_dvd _ divides, ← Nat.mul_mod,
    Nat.mod_add_mod, Nat.mod_mul_mod]

theorem authSpec_mod (s : State) : authSpec s % 2 ^ 128 = authSpecModuloTag s := by
  have divides : 2 ^ 128 ∣ 2 ^ 132 := pow_dvd_pow 2 (by norm_num)
  simp only [authSpec, mulredSpec_mod, Nat.mod_mod_of_dvd _ divides]
  rfl

/-- The tag reads the low 128 bits of the accumulator (41_pa_unit.md R150). -/
theorem tagByte_mod (x k : Nat) : tagByte (x % 2 ^ 128) k = tagByte x k := by
  unfold tagByte
  split
  · rename_i lt
    apply BitVec.eq_of_toNat_eq
    have pow_split : 2 ^ 128 = 2 ^ (8 * k) * 2 ^ (128 - 8 * k) := by
      rw [← pow_add, show 8 * k + (128 - 8 * k) = 128 by omega]
    rw [BitVec.toNat_ofNat, BitVec.toNat_ofNat, pow_split, Nat.mod_mul_right_div_self,
      Nat.mod_mod_of_dvd _ (pow_dvd_pow 2 (by omega))]
  · rfl

/-- Settles O43: each reduction modulo 2^132 keeps the residue modulo 2^128, and the tag is a function of that
residue. -/
theorem tagIsComputableModuloTwoToThe128 : Obligations.TagIsComputableModuloTwoToThe128 := by
  intro s t _ h ht k
  obtain ⟨-, -, rfl⟩ := exec_ran rfl h ht
  rw [← authSpec_mod, tagByte_mod]
  exact authEffect_out_getElem s k.isLt

/-- Settles O44: the sum is reduced in any case. -/
theorem accumulatorMayBeKeptReduced : Obligations.AccumulatorMayBeKeptReduced := by
  intro x h l
  rw [mulred, accModulus, Nat.mod_add_mod]

theorem bufWord_congr {s s' : State} {d d' : Descriptor} {k : Nat}
    (h : ∀ j, j < 8 → s'.bufByte d' (k + j) = s.bufByte d (k + j)) : bufWord s' d' k = bufWord s d k := by
  unfold bufWord
  rw [Finset.sum_congr rfl fun j hj => by rw [h j (Finset.mem_range.mp hj)]]

/-- The limbs are a function of the 32 bytes of the key (41_pa_unit.md R141). -/
theorem limbsSpec_congr {s s' : State} (h : ∀ k, k < 32 → s'.bufByte s'.key k = s.bufByte s.key k) :
    limbsSpec s' = limbsSpec s := by
  simp only [limbsSpec, keyLimb]
  rw [bufWord_congr fun j hj => h (0 + j) (by omega), bufWord_congr fun j hj => h (8 + j) (by omega),
    bufWord_congr fun j hj => h (16 + j) (by omega), bufWord_congr fun j hj => h (24 + j) (by omega)]

/-- Settles O45: the limbs are a function of the key bytes, and the tag of the limbs and the stride sum. -/
theorem tagDependsOnTheStrideSumOnly : Obligations.TagDependsOnTheStrideSumOnly := by
  intro s s' t t' _ h ht _ h' ht' key strides
  obtain ⟨-, check, rfl⟩ := exec_ran rfl h ht
  obtain ⟨-, check', rfl⟩ := exec_ran rfl h' ht'
  obtain ⟨len, -⟩ := authCheck_passed check
  obtain ⟨len', -⟩ := authCheck_passed check'
  have limbs : limbsSpec s' = limbsSpec s := limbsSpec_congr fun k hk => by
    rw [State.bufByte, State.bufByte, if_pos (by omega), if_pos (by omega), key k hk]
  have auth : authSpec s' = authSpec s := by simp only [authSpec, limbs, strides]
  refine Vector.ext fun k hk => ?_
  show (authEffect s').out[k] = (authEffect s).out[k]
  rw [authEffect_out_getElem s' hk, authEffect_out_getElem s hk, auth]

/-! ### The registers a unit does not use -/

theorem effectOf_nh_withPa {i : Instr} (hi : isNhCommand i = true) (s : State) (l : Limbs) (x : Acc) :
    effectOf i { s with limbs := l, acc := x } = { effectOf i s with limbs := l, acc := x } := by
  cases i with
  | nhInit | nhXor _ | nhRnd | nhAbs _ | nhOut => rfl
  | nhDigest =>
    simp only [effectOf, nhDigestState_eq]
    rfl
  | _ => cases hi

theorem effectOf_pa_withNh {i : Instr} (hi : isPaCommand i = true) (s : State) (n : NhState) :
    effectOf i { s with ns := n } = { effectOf i s with ns := n } := by
  cases i with
  | paKey | paClr | paAddn | paAddm _ | paMulr | paMuls | paTag => rfl
  | paAuth =>
    simp only [effectOf, authEffect_eq_spec]
    rfl
  | _ => cases hi

/-- A command commutes with a change of the state that its check, its effect and the record of a fault do not see. -/
theorem exec_commutes {i : Instr} {s t : State} {f : State → State} (hi : isSysCommand i = false)
    (status : (f s).status = s.status) (check : checkOf i (f s) = checkOf i s)
    (effect : effectOf i (f s) = f (effectOf i s)) (record : ∀ w c, raise w c (f s) = f (raise w c s))
    (h : exec i s = .next t) : exec i (f s) = .next (f t) := by
  rcases exec_next_cases h with ⟨sys, -⟩ | ⟨-, hs, rfl⟩ | ⟨-, hs, c, hc, rfl⟩ | ⟨-, hs, hc, rfl⟩
  · simp [hi] at sys
  · exact exec_dropped hi (status ▸ hs)
  · rw [exec_eq_execute hi, check, hc, execute_fault _ _ _ ((faulted_eq_false_iff _).mpr (status ▸ hs)), record]
  · rw [exec_runs hi (status ▸ hs) (check.trans hc), effect]

theorem not_sysCommand_of_nh {i : Instr} (h : isNhCommand i = true) : isSysCommand i = false := by
  cases i <;> first | rfl | cases h

theorem not_sysCommand_of_pa {i : Instr} (h : isPaCommand i = true) : isSysCommand i = false := by
  cases i <;> first | rfl | cases h

/-- Settles O51: no check reads a working register, and no effect reads or writes one of the other unit. -/
theorem unitsShareNoWorkingState : Obligations.UnitsShareNoWorkingState :=
  ⟨fun i s _ l x hi h => exec_commutes (f := fun u => { u with limbs := l, acc := x }) (not_sysCommand_of_nh hi) rfl
      (checkOf_congr i rfl rfl rfl rfl rfl) (effectOf_nh_withPa hi s l x) (fun _ _ => rfl) h,
    fun i s _ n hi h => exec_commutes (f := fun u => { u with ns := n }) (not_sysCommand_of_pa hi) rfl
      (checkOf_congr i rfl rfl rfl rfl rfl) (effectOf_pa_withNh hi s n) (fun _ _ => rfl) h⟩

end Sys2Proof.Machine
end

section
/-! SUPPORT. The proofs for the host's accesses (10_state.md R40 to R44): what a read and a write of each register
do, the bytes of the window and of OUT as little-endian sums, and the accesses that are refused. -/

namespace Sys2Proof.Machine

/-! ### Little-endian values -/

theorem le64_range_map (f : Nat → Byte) (n : Nat) :
    le64 ((List.range n).map f) = BitVec.ofNat 64 (∑ j ∈ Finset.range n, (f j).toNat * 2 ^ (8 * j)) := by
  rw [le64, leNat_range_map]

theorem windowValue_eq (s : State) (a n : Nat) : s.windowValue a n = mbSum s a n := by
  rw [State.windowValue, State.memRead, le64_range_map, mbSum]

/-- A part of OUT inside it, byte by byte. -/
theorem bytesFrom_out (s : State) {k n : Nat} (h : k + n ≤ 32) :
    bytesFrom s.out.toList k (k + n) = (List.range n).map fun j => s.out.toList.getD (k + j) 0 := by
  apply List.ext_getElem
  · simp [bytesFrom]
    omega
  · intro j h1 h2
    have : j < n := by simpa using h2
    simp [bytesFrom, List.getD_eq_getElem?_getD, show k + j < 32 by omega]

theorem outValue_eq (s : State) {k n : Nat} (h : k + n ≤ 32) : s.outValue k n = outSum s k n := by
  rw [State.outValue, bytesFrom_out s h, le64_range_map, outSum]

/-- The bytes of a word, read as a little-endian value, are the word (20_memory.md R63). -/
theorem le64_bytesLE64 (w : Word) : le64 (bytesLE64 w) = w := by
  rw [bytesLE64, le64_range_map]
  have sum_eq : ∑ j ∈ Finset.range 8, (byteOf w j).toNat * 2 ^ (8 * j) = w.toNat % 2 ^ (8 * 8) := by
    simp only [byteOf, BitVec.toNat_ofNat, sum_bytes_eq_mod]
  rw [sum_eq, Nat.mod_eq_of_lt w.isLt, BitVec.ofNat_toNat, BitVec.setWidth_eq]

/-! ### The registers -/

/-- The map gives each register at its offset (10_state.md R40). -/
theorem regAt_offset (r : HostReg) : regAt r.offset = some r := by cases r <;> rfl

theorem offset_bounds (r : HostReg) : r.offset < 0x1000 ∧ r.offset % 8 = 0 := by cases r <;> decide

theorem hostWrite_register (r : HostReg) (v : Word) (s : State) : hostWrite r.offset 8 v s = regWrite v s r := by
  obtain ⟨block, aligned⟩ := offset_bounds r
  simp only [hostWrite, targetOf_register s.params.mbCap block aligned (regAt_offset r)]

theorem widthOk_iff (w : Nat) : widthOk w = true ↔ w ∈ [1, 2, 4, 8] := by
  simp [widthOk, or_assoc]

/-- The reads of OUT by byte (10_state.md R42). -/
theorem readsOut_iff (isRead : Bool) (offset w : Nat) :
    (isRead && widthOk w && decide (outBase ≤ offset) && decide (offset + w ≤ outBase + 32)) = true ↔
      isRead = true ∧ w ∈ [1, 2, 4, 8] ∧ 0x100 ≤ offset ∧ offset + w ≤ 0x120 := by
  simp only [Bool.and_eq_true, decide_eq_true_eq, widthOk_iff, and_assoc]
  rfl

/-- The access is a read of OUT by byte (10_state.md R42). -/
theorem targetOf_outBytes (cap : Nat) {k w : Nat} (hw : w ∈ [1, 2, 4, 8]) (h : k + w ≤ 32) :
    targetOf cap true (0x100 + k) w = .outBytes k := by
  unfold targetOf
  rw [if_pos (by unfold blockEnd; omega), if_pos ((readsOut_iff _ _ _).mpr ⟨rfl, hw, by omega, by omega⟩),
    show 0x100 + k - outBase = k from Nat.add_sub_cancel_left 0x100 k]

/-- A 64-bit read of a register outside OUT falls on the register. -/
theorem targetOf_readRegister (cap : Nat) {r : HostReg} (h : r.offset < 0x100) :
    targetOf cap true r.offset 8 = .register r := by
  obtain ⟨block, aligned⟩ := offset_bounds r
  unfold targetOf
  rw [if_pos (by exact block), if_neg, if_pos ⟨rfl, aligned⟩, regAt_offset]
  rw [readsOut_iff]
  omega

/-- A 64-bit read of a register returns its value: through the bytes of OUT for the four words of OUT. -/
theorem hostRead_register (r : HostReg) (s : State) :
    hostRead r.offset 8 s = .next { s with reply := some (s.regValue r) } := by
  have inside (h : r.offset < 0x100) : hostRead r.offset 8 s = .next { s with reply := some (s.regValue r) } := by
    simp only [hostRead, targetOf_readRegister s.params.mbCap h]
  have out (k : Nat) (h : k + 8 ≤ 32) :
      hostRead (0x100 + k) 8 s = .next { s with reply := some (s.outValue k 8) } := by
    simp only [hostRead, targetOf_outBytes s.params.mbCap (by simp) h]
  cases r with
  | outw0 => exact out 0 (by norm_num)
  | outw1 => exact out 8 (by norm_num)
  | outw2 => exact out 16 (by norm_num)
  | outw3 => exact out 24 (by norm_num)
  | _ => exact inside (by decide)

/-- ACC2 holds bits 131:128 (10_state.md R28). -/
theorem accHigh_eq_ofNat (x : Acc) :
    (x.extractLsb' 128 4).setWidth 64 = BitVec.ofNat 64 (x.toNat / 2 ^ 128) := by
  have := x.isLt
  apply BitVec.eq_of_toNat_eq
  rw [BitVec.toNat_setWidth, BitVec.extractLsb'_toNat, Nat.shiftRight_eq_div_pow, BitVec.toNat_ofNat]
  omega

/-- The registers in the order of their offsets (10_state.md R40). -/
def hostRegs : List HostReg :=
  [.cmd, .status, .ctrl, .finfo, .keyOff, .keyLen, .nonOff, .nonLen, .msgOff, .msgLen, .ns0, .ns1, .ns2, .ns3,
    .r0, .r1, .s0, .s1, .acc0, .acc1, .acc2, .outw0, .outw1, .outw2, .outw3]

theorem mem_hostRegs (r : HostReg) : r ∈ hostRegs := by cases r <;> decide

/-- Settles O52: each offset of the table is a register's, and the value that register's. -/
theorem registerReadsReturnTheRegister : Obligations.RegisterReadsReturnTheRegister := by
  intro s rest offset v hp mem
  have table : (offset, v) ∈ hostRegs.map fun r => (r.offset, s.regValue r) := by
    simpa only [hostRegs, List.map_cons, List.map_nil, HostReg.offset,
      State.regValue, accLow_eq_ofNat, accMiddle_eq_ofNat, accHigh_eq_ofNat, outValue_eq s (by norm_num : 0 + 8 ≤ 32),
      outValue_eq s (by norm_num : 8 + 8 ≤ 32), outValue_eq s (by norm_num : 16 + 8 ≤ 32),
      outValue_eq s (by norm_num : 24 + 8 ≤ 32)] using mem
  obtain ⟨r, -, e⟩ := List.mem_map.mp table
  cases e
  rw [step_pending hp, hostAccess, hostRead_register]
  rfl

/-- Only bit 0 of a value written to CTRL is stored (10_state.md R31). -/
theorem ctrlStored_eq (v : Word) : ctrlStored v = BitVec.ofNat 64 (v.toNat % 2) := by
  rw [ctrlStored, slice, pow_zero, Nat.div_one, Nat.sub_self, zero_add, pow_one]

/-- Settles O53: each offset of the table is a register's, and the state what a write to that register leaves. -/
theorem registerWritesFollowTheAccessRights : Obligations.RegisterWritesFollowTheAccessRights := by
  intro s t rest offset v hp mem
  have table : ∃ r : HostReg, offset = r.offset ∧ regWrite v { s with pending := rest } r = .next t := by
    rcases List.mem_append.mp mem with stored | ignored
    · simp only [List.mem_cons, Prod.mk.injEq, List.not_mem_nil, or_false] at stored
      rcases stored with ⟨rfl, rfl⟩ | ⟨rfl, rfl⟩ | ⟨rfl, rfl⟩ | ⟨rfl, rfl⟩ | ⟨rfl, rfl⟩ | ⟨rfl, rfl⟩ | ⟨rfl, rfl⟩ |
        ⟨rfl, rfl⟩ | ⟨rfl, rfl⟩ | ⟨rfl, rfl⟩ | ⟨rfl, rfl⟩
      exacts [⟨.ctrl, rfl, by rw [← ctrlStored_eq]; rfl⟩, ⟨.keyOff, rfl, rfl⟩, ⟨.keyLen, rfl, rfl⟩, ⟨.nonOff, rfl, rfl⟩,
        ⟨.nonLen, rfl, rfl⟩, ⟨.msgOff, rfl, rfl⟩, ⟨.msgLen, rfl, rfl⟩, ⟨.ns0, rfl, rfl⟩, ⟨.ns1, rfl, rfl⟩,
        ⟨.ns2, rfl, rfl⟩, ⟨.ns3, rfl, rfl⟩]
    · obtain ⟨o, ho, e⟩ := List.mem_map.mp ignored
      cases e
      simp only [List.mem_cons, List.not_mem_nil, or_false] at ho
      rcases ho with rfl | rfl | rfl | rfl | rfl | rfl | rfl | rfl | rfl | rfl | rfl | rfl | rfl
      exacts [⟨.status, rfl, rfl⟩, ⟨.finfo, rfl, rfl⟩, ⟨.r0, rfl, rfl⟩, ⟨.r1, rfl, rfl⟩, ⟨.s0, rfl, rfl⟩,
        ⟨.s1, rfl, rfl⟩, ⟨.acc0, rfl, rfl⟩, ⟨.acc1, rfl, rfl⟩, ⟨.acc2, rfl, rfl⟩, ⟨.outw0, rfl, rfl⟩,
        ⟨.outw1, rfl, rfl⟩, ⟨.outw2, rfl, rfl⟩, ⟨.outw3, rfl, rfl⟩]
  obtain ⟨r, rfl, stored⟩ := table
  rw [step_pending hp, hostAccess, hostWrite_register, stored]

/-- Settles O54: a read answers with the host's own reply changed. -/
theorem hostReadChangesNothing : Obligations.HostReadChangesNothing := by
  intro s t rest offset w hp h
  rw [step_pending hp] at h
  exact hostRead_next h

/-- Settles O58: the access falls on OUT, and its bytes are their little-endian sum. -/
theorem outIsReadableAtEveryWidth : Obligations.OutIsReadableAtEveryWidth := by
  intro s rest k w hp hw h
  rw [step_pending hp]
  simp only [hostAccess, hostRead, targetOf_outBytes s.params.mbCap hw h, outValue_eq { s with pending := rest } h]
  rfl

/-! ### The window -/

/-- A write through the window of bytes below the capacity (10_state.md R41, R42). -/
theorem step_windowWrite {s : State} {rest : List HostAccess} {a w : Nat} {v : Word}
    (hp : s.pending = .write (0x01000000 + a) w v :: rest) (hw : w ∈ [1, 2, 4, 8]) (h : a + w ≤ s.params.mbCap) :
    step s = .next { s with pending := rest, mb := Memory.writeBytes s.mb a v w } := by
  rw [step_pending hp]
  simp only [hostAccess, hostWrite, targetOf_window s.params.mbCap false hw h]

/-- Settles O55: the bytes written read back, and every other address reads as before. -/
theorem windowWriteStoresItsBytesOnly : Obligations.WindowWriteStoresItsBytesOnly := by
  intro s rest a w v hp hw h
  refine ⟨_, step_windowWrite hp hw h, rfl, fun k hk => ?_, fun b hb => ?_⟩
  · simp only [State.mbByte, read?_writeBytes_inside s.mb a v hk]
    rfl
  · simp only [State.mbByte, read?_writeBytes_outside s.mb v hb]

/-- Settles O56: the access falls on the window, and its bytes are their little-endian sum. -/
theorem windowReadReturnsItsBytes : Obligations.WindowReadReturnsItsBytes := by
  intro s rest a w hp hw h
  rw [step_pending hp]
  simp only [hostAccess, hostRead, targetOf_window s.params.mbCap true hw h, windowValue_eq]
  rfl

/-- A window access of a supported width that reaches beyond the capacity is unmapped (10_state.md R44). -/
theorem targetOf_beyond (cap : Nat) (isRead : Bool) {offset w : Nat} (ho : 0x01000000 ≤ offset) (hw : w ∈ [1, 2, 4, 8])
    (h : 0x01000000 + cap < offset + w) : targetOf cap isRead offset w = .unmapped := by
  unfold targetOf
  rw [if_neg (by unfold blockEnd; omega), if_neg (by unfold windowBase; omega), if_pos (widthOk_of_mem hw),
    if_neg (by unfold windowBase; omega)]

/-- Settles O57: a step that answers a next state has stored the word, and the read of its eight bytes gives it. -/
theorem commandReadsTheWordTheHostWrote : Obligations.CommandReadsTheWordTheHostWrote := by
  intro s t rest a k v d hp h addr inside
  have below : a + 8 ≤ s.params.mbCap := by
    by_contra beyond
    rw [step_pending hp] at h
    simp only [hostAccess, hostWrite,
      targetOf_beyond s.params.mbCap false (Nat.le_add_right 0x01000000 a) (by simp : 8 ∈ [1, 2, 4, 8]) (by omega)] at h
    cases h
  obtain ⟨u, hu, -, stored, -⟩ := windowWriteStoresItsBytesOnly s rest a 8 v hp (by simp) below
  cases hu.symm.trans h
  have read : t.bufRead d k 8 = bytesLE64 v := by
    refine List.map_congr_left fun j hj => ?_
    have hj : j < 8 := List.mem_range.mp hj
    rw [State.bufByte, if_pos (by omega), ← Nat.add_assoc, addr, stored j hj, byteOf]
  rw [read, le64_bytesLE64]

/-! ### Refused accesses -/

theorem hostAccess_unmapped {x : HostAccess} {s : State} {offset w : Nat}
    (hx : x = .read offset w ∨ ∃ v, x = .write offset w v)
    (h : ∀ isRead, targetOf s.params.mbCap isRead offset w = .unmapped) :
    hostAccess x s = .refused (.unmappedOffset offset) := by
  rcases hx with rfl | ⟨v, rfl⟩ <;> simp only [hostAccess, hostRead, hostWrite, h]

/-- An aligned 64-bit access in the block that names no register (10_state.md R40). -/
theorem targetOf_hole (cap : Nat) (isRead : Bool) {offset : Nat} (block : offset < 0x1000) (aligned : offset % 8 = 0)
    (hole : offset ∉ hostRegs.map HostReg.offset) : targetOf cap isRead offset 8 = .unmapped := by
  have no_register : regAt offset = none := by
    refine Option.eq_none_iff_forall_ne_some.mpr fun r hr => hole ?_
    exact List.mem_map.mpr ⟨r, mem_hostRegs r, (offset_of_regAt hr).symm⟩
  have not_out : ¬ (0x100 ≤ offset ∧ offset + 8 ≤ 0x120) := by
    rintro ⟨lo, hi⟩
    refine hole ?_
    have words : offset = 0x100 ∨ offset = 0x108 ∨ offset = 0x110 ∨ offset = 0x118 := by omega
    rcases words with rfl | rfl | rfl | rfl <;> decide
  unfold targetOf
  rw [if_pos (by exact block), if_neg, if_pos ⟨rfl, aligned⟩, no_register]
  rw [readsOut_iff]
  exact fun ⟨_, _, out⟩ => not_out out

theorem targetOf_between (cap : Nat) (isRead : Bool) {offset : Nat} (w : Nat) (lo : 0x1000 ≤ offset)
    (hi : offset < 0x01000000) : targetOf cap isRead offset w = .unmapped := by
  unfold targetOf
  rw [if_neg (by exact not_lt.mpr lo), if_pos (by exact hi)]

/-- Settles O59: both kinds of access have the same target in each of the three cases. -/
theorem unmappedOffsetsAreRefused : Obligations.UnmappedOffsetsAreRefused := by
  intro s x rest offset w hp hx h
  rw [step_pending hp]
  refine hostAccess_unmapped hx fun isRead => ?_
  rcases h with ⟨block, rfl, aligned, hole⟩ | ⟨lo, hi⟩ | ⟨window, hw, beyond⟩
  · exact targetOf_hole _ isRead block aligned hole
  · exact targetOf_between _ isRead w lo hi
  · exact targetOf_beyond _ isRead window hw beyond

/-- An access in the block that is neither 8 aligned bytes nor a permitted read of OUT (10_state.md R42). -/
theorem targetOf_malformed (cap : Nat) {isRead : Bool} {offset w : Nat} (block : offset < 0x1000)
    (form : w ≠ 8 ∨ offset % 8 ≠ 0)
    (not_out : isRead = true → w ∉ [1, 2, 4, 8] ∨ offset < 0x100 ∨ 0x120 < offset + w) :
    targetOf cap isRead offset w = .unsupported := by
  unfold targetOf
  rw [if_pos (by exact block), if_neg, if_neg (by tauto)]
  rw [readsOut_iff]
  rintro ⟨read, width, lo, hi⟩
  rcases not_out read with bad | low | high
  · exact bad width
  · omega
  · omega

theorem targetOf_windowWidth (cap : Nat) (isRead : Bool) {offset w : Nat} (window : 0x01000000 ≤ offset)
    (hw : w ∉ [1, 2, 4, 8]) : targetOf cap isRead offset w = .unsupported := by
  unfold targetOf
  rw [if_neg (by unfold blockEnd; omega), if_neg (by unfold windowBase; omega), if_neg ((widthOk_iff w).not.mpr hw)]

/-- Settles O60: the target of the read, of the write and of the window access is an unsupported form. -/
theorem unsupportedAccessesAreRefused : Obligations.UnsupportedAccessesAreRefused := by
  intro s x rest offset w hp h
  rw [step_pending hp]
  rcases h with ⟨rfl, block, form, not_out⟩ | ⟨⟨v, rfl⟩, block, form⟩ | ⟨rfl | ⟨v, rfl⟩, window, hw⟩
  · simp only [hostAccess, hostRead, targetOf_malformed s.params.mbCap block form fun _ => not_out]
  · simp only [hostAccess, hostWrite, targetOf_malformed (isRead := false) s.params.mbCap block form (by simp)]
  · simp only [hostAccess, hostRead, targetOf_windowWidth s.params.mbCap true window hw]
  · simp only [hostAccess, hostWrite, targetOf_windowWidth s.params.mbCap false window hw]

end Sys2Proof.Machine
end
